-- ==== Sys2Proof/Word.lean ====
section
/-! DEFINITION. The widths of the core (R9): bytes, memory and instruction words, registers and addresses, register
indices. All arithmetic on them is modulo their width (R12). -/

namespace Sys2Proof

/-- One byte of memory (R50). -/
abbrev Byte := BitVec 8

/-- The memory primitive's unit and the instruction word: 32 bits (R9, R50, R80). -/
abbrev Word := BitVec 32

/-- A general register's 64-bit pattern (R20). -/
abbrev DWord := BitVec 64

/-- A byte address: 64 bits, unsigned, never narrowed (R51). -/
abbrev Addr := BitVec 64

/-- A register index, 0 to 31 (R20). -/
abbrev RegIndex := BitVec 5

/-- Index 31, the hard-wired zero register `XZR` (R21, R22). -/
abbrev xzr : RegIndex := 31#5

end Sys2Proof
end

