-- ==== Sys2Proof/Config.lean ====
section
/-! DEFINITION. The parameters the spec leaves open (R10) as plain data, and the instruction identities the decoder
dispatches to (R95, R112). The values the spec takes by default stand in `Sys2Proof/Decode.lean` (what the decoder reads)
and `Sys2Proof/Machine/Params.lean` (the rest). -/

namespace Sys2Proof

/-- The 19 instructions of the opcode table (R95): what `OPCODE_TABLE` maps an 11-bit primary opcode to (R92). -/
inductive TableInstr where
  | adds | subs | addis | subis | ands | eor | orr | lsl | lsr | movz
  | stur | sturb | sturh | ldur | ldurb | ldurh
  | b | br | hlt
deriving DecidableEq, Repr

/-- The identity a `Decoded(id)` event reports: a table instruction or `B.cond` (R112, R115). -/
inductive InstrId where
  | table (t : TableInstr)
  | bCond
deriving DecidableEq, Repr

/-- `OPCODE_TABLE` (R92): a partial map from 11-bit primary opcodes to instructions, written as its graph. -/
abbrev OpcodeTable := List (BitVec 11 × TableInstr)

/-- `SHIFT_SPLIT`: how LSL and LSR are told apart (R86). -/
inductive ShiftSplit where
  | byOpcode
  | byImms
deriving DecidableEq, Repr

/-- `ALIGN_POLICY`: what a word access at an address that is no multiple of 4 does (R55). -/
inductive AlignPolicy where
  | fault
  | passthrough
deriving DecidableEq, Repr

/-- `ENDIAN`: the byte order of a word in memory (R56). -/
inductive Endian where
  | little
  | big
deriving DecidableEq, Repr

/-- `NARROW_LOAD_EXT`: how LDURB and LDURH widen their 8 or 16 bits (R197). -/
inductive NarrowLoadExt where
  | sext64
  | sext32Zext64
  | zext64
deriving DecidableEq, Repr

/-- One run of provisioned byte addresses, both ends included. A list of them is any set of addresses (R52). -/
structure Region where
  first : Addr
  last : Addr
deriving DecidableEq, Repr

/-- The parameters of R10 that a running core reads. `ENTRY_PC` and `INITIAL_MEMORY` are read only at reset and are
arguments of `State.boot`. -/
structure Config where
  opcodeTable : OpcodeTable
  shiftSplit : ShiftSplit
  memWindow : List Region
  alignPolicy : AlignPolicy
  endian : Endian
  narrowLoadExt : NarrowLoadExt
deriving DecidableEq, Repr

end Sys2Proof
end

