-- ==== Sys2Proof/Syntax.lean ====
section
/-! DEFINITION. The instructions: one constructor for each row of `spec/opcode_table.json`, with the operand fields its
rule names (R84 to R91). Bits a rule does not name are ignored (R83) and are no operand. -/

namespace Sys2Proof

/-- The instruction set (R3). Operands stand in the order of the assembler syntax (R104): destination or transfer
register, then sources, then immediates. -/
inductive Instr where
  /-- ADDS (register), R133. -/
  | adds (rd rn rm : RegIndex)
  /-- SUBS (register), R134. -/
  | subs (rd rn rm : RegIndex)
  /-- ADDIS, R135. -/
  | addis (rd rn : RegIndex) (imm12 : BitVec 12)
  /-- SUBIS, R136: `sh2` is `w[23:22]`. -/
  | subis (rd rn : RegIndex) (imm12 : BitVec 12) (sh2 : BitVec 2)
  /-- ANDS, R137. -/
  | ands (rd rn rm : RegIndex)
  /-- EOR, R138. -/
  | eor (rd rn rm : RegIndex)
  /-- ORR, R139. -/
  | orr (rd rn rm : RegIndex)
  /-- LSL (immediate), R140. -/
  | lsl (rd rn : RegIndex) (imms : BitVec 6)
  /-- LSR (immediate), R141. -/
  | lsr (rd rn : RegIndex) (immr : BitVec 6)
  /-- MOVZ, R142: `hw` is accepted and has no effect (R97). -/
  | movz (rd : RegIndex) (imm16 : BitVec 16) (hw : BitVec 2)
  /-- STUR, R191. -/
  | stur (rt rn : RegIndex) (imm9 : BitVec 9)
  /-- STURB, R192. -/
  | sturb (rt rn : RegIndex) (imm9 : BitVec 9)
  /-- STURH, R193. -/
  | sturh (rt rn : RegIndex) (imm9 : BitVec 9)
  /-- LDUR, R194. -/
  | ldur (rt rn : RegIndex) (imm9 : BitVec 9)
  /-- LDURB, R195. -/
  | ldurb (rt rn : RegIndex) (imm9 : BitVec 9)
  /-- LDURH, R196. -/
  | ldurh (rt rn : RegIndex) (imm9 : BitVec 9)
  /-- B, R220. -/
  | b (imm26 : BitVec 26)
  /-- BR, R221. -/
  | br (rn : RegIndex)
  /-- HLT, R222. -/
  | hlt
  /-- B.EQ, R172. -/
  | bEq (imm19 : BitVec 19)
  /-- B.NE, R173. -/
  | bNe (imm19 : BitVec 19)
  /-- B.GE, R174. -/
  | bGe (imm19 : BitVec 19)
  /-- B.LT, R175. -/
  | bLt (imm19 : BitVec 19)
  /-- B.GT, R176. -/
  | bGt (imm19 : BitVec 19)
  /-- B.LE, R177. -/
  | bLe (imm19 : BitVec 19)
  /-- B.cond with a code outside the six, R178. -/
  | bUnrecognised (cond : BitVec 4) (imm19 : BitVec 19)
deriving DecidableEq, Repr

end Sys2Proof
end

