-- ==== Sys2Proof/WellFormed.lean ====
section
/-! DEFINITION. Which instruction terms have a word under the default opcode table (R95). Every operand already has its
field's width, so only four forms carry a check: what R86, R95, R96 and R103 take out of a field's range. -/

namespace Sys2Proof

/-- The six recognised condition codes EQ, NE, GE, LT, GT, LE (R170). -/
def recognisedConds : List (BitVec 4) := [0x0#4, 0x1#4, 0xA#4, 0xB#4, 0xC#4, 0xD#4]

/-- A term that some word encodes under the default table with the given `SHIFT_SPLIT`. -/
def Instr.wellFormed (split : ShiftSplit) : Instr → Bool
  | .adds _ _ _ => true
  | .subs _ _ _ => true
  | .addis _ _ _ => true
  -- `w[23] = 0` in every SUBIS word the default table admits (R96).
  | .subis _ _ _ sh2 => !sh2.getLsbD 1
  | .ands _ _ _ => true
  | .eor _ _ _ => true
  | .orr _ _ _ => true
  -- Under `by_imms`, imms = 63 is LSR (R86).
  | .lsl _ _ imms => decide (split = .byOpcode) || imms != 63#6
  -- Under `by_opcode`, bit 21 is `immr[5]` and 0 in every LSR word (R101).
  | .lsr _ _ immr => decide (split = .byImms) || !immr.getLsbD 5
  | .movz _ _ _ => true
  | .stur _ _ _ => true
  | .sturb _ _ _ => true
  | .sturh _ _ _ => true
  | .ldur _ _ _ => true
  | .ldurb _ _ _ => true
  | .ldurh _ _ _ => true
  | .b _ => true
  | .br _ => true
  | .hlt => true
  | .bEq _ => true
  | .bNe _ => true
  | .bGe _ => true
  | .bLt _ => true
  | .bGt _ => true
  | .bLe _ => true
  -- The six recognised codes are the other rows' (R103, R178).
  | .bUnrecognised cond _ => !recognisedConds.contains cond

end Sys2Proof
end

