-- ==== Sys2Proof/Decode.lean ====
section
/-! DEFINITION. From bytes to instructions and back: the byte order of a word (R56), field extraction (R81, R84 to R91),
the default opcode table (R95), the two-step dispatch (R82), the encoder, and the bits each instruction ignores (R83). -/

namespace Sys2Proof

/-! ### Byte order (R53, R54, R56) -/

/-- The word that the four bytes at a, a+1, a+2, a+3 form in byte order `e` (R53). -/
def wordOfBytes (e : Endian) (b0 b1 b2 b3 : Byte) : Word :=
  match e with
  | .little => b3 ++ b2 ++ b1 ++ b0
  | .big => b0 ++ b1 ++ b2 ++ b3

/-- The byte that address a + k holds of the word `v` stored at a, k from 0 to 3 (R54). -/
def byteOfWord (e : Endian) (v : Word) (k : Nat) : Byte :=
  match e with
  | .little => v.extractLsb' (8 * k) 8
  | .big => v.extractLsb' (8 * (3 - k)) 8

/-! ### Fields (R81, R84 to R91) -/

/-- The primary opcode `op11 = w[31:21]` (R81). -/
def fieldOp11 (w : Word) : BitVec 11 := w.extractLsb' 21 11

/-- The high-byte discriminator `hb = w[31:24]` (R81). -/
def fieldHb (w : Word) : BitVec 8 := w.extractLsb' 24 8

/-- `Rd` and `Rt`, both `w[4:0]` (R84, R88). -/
def fieldRd (w : Word) : RegIndex := w.extractLsb' 0 5

/-- `Rn = w[9:5]` (R84). -/
def fieldRn (w : Word) : RegIndex := w.extractLsb' 5 5

/-- `Rm = w[20:16]` (R84). -/
def fieldRm (w : Word) : RegIndex := w.extractLsb' 16 5

/-- `imm12 = w[21:10]` (R85). -/
def fieldImm12 (w : Word) : BitVec 12 := w.extractLsb' 10 12

/-- `sh2 = w[23:22]` (R85). -/
def fieldSh2 (w : Word) : BitVec 2 := w.extractLsb' 22 2

/-- `immr = w[21:16]` (R86). -/
def fieldImmr (w : Word) : BitVec 6 := w.extractLsb' 16 6

/-- `imms = w[15:10]` (R86). -/
def fieldImms (w : Word) : BitVec 6 := w.extractLsb' 10 6

/-- `imm16 = w[20:5]` (R87). -/
def fieldImm16 (w : Word) : BitVec 16 := w.extractLsb' 5 16

/-- `hw = w[22:21]` (R87). -/
def fieldHw (w : Word) : BitVec 2 := w.extractLsb' 21 2

/-- `imm9 = w[20:12]` (R88). -/
def fieldImm9 (w : Word) : BitVec 9 := w.extractLsb' 12 9

/-- `imm26 = w[25:0]` (R89). -/
def fieldImm26 (w : Word) : BitVec 26 := w.extractLsb' 0 26

/-- `imm19 = w[23:5]` (R90). -/
def fieldImm19 (w : Word) : BitVec 19 := w.extractLsb' 5 19

/-- `cond = w[3:0]` (R90). -/
def fieldCond (w : Word) : BitVec 4 := w.extractLsb' 0 4

/-! ### The opcode table (R92, R95) -/

/-- The 32 primary opcodes of B, 0x0A0 to 0x0BF: `w[31:26] = 0b000101` with any `imm26[25:21]` (R93, R95). -/
def opcodesOfB : OpcodeTable :=
  (List.range 32).map fun k => (0x0A0#11 + BitVec.ofNat 11 k, TableInstr.b)

/-- The default `OPCODE_TABLE` of R95 (D1, D2), in rising order of the primary opcode. -/
def defaultOpcodeTable : OpcodeTable :=
  opcodesOfB ++
  [ (0x1C0#11, .sturb), (0x1C2#11, .ldurb),
    (0x3C0#11, .sturh), (0x3C2#11, .ldurh),
    (0x550#11, .orr), (0x558#11, .adds),
    (0x588#11, .addis), (0x589#11, .addis),
    (0x650#11, .eor),
    (0x694#11, .movz), (0x695#11, .movz), (0x696#11, .movz), (0x697#11, .movz),
    (0x69A#11, .lsr), (0x69B#11, .lsl),
    (0x6A2#11, .hlt), (0x6B0#11, .br) ] ++
  [ (0x750#11, .ands), (0x758#11, .subs),
    (0x788#11, .subis), (0x789#11, .subis), (0x78A#11, .subis), (0x78B#11, .subis),
    (0x7C0#11, .stur), (0x7C2#11, .ldur) ]

/-- The default `SHIFT_SPLIT` (D3). -/
def defaultShiftSplit : ShiftSplit := .byOpcode

/-- The default `ENDIAN` (D8). -/
def defaultEndian : Endian := .little

/-- Every key of the table after `k` is greater than the one before it. -/
def opcodesRiseFrom : BitVec 11 → OpcodeTable → Bool
  | _, [] => true
  | k, (op, _) :: rest => decide (k < op) && opcodesRiseFrom op rest

/-- The table is the graph of a function from primary opcodes to instructions (R92, I19). A function's graph is listed
in exactly one way with rising opcodes, so this form loses no table and has no opcode twice. -/
def OpcodeTable.isMap : OpcodeTable → Bool
  | [] => true
  | (op, _) :: rest => opcodesRiseFrom op rest

/-- `OPCODE_TABLE[op11]`, or nothing where `op11` is not in the table (R82). -/
def OpcodeTable.find : OpcodeTable → BitVec 11 → Option TableInstr
  | [], _ => none
  | (op, t) :: rest, op11 => if op = op11 then some t else OpcodeTable.find rest op11

/-! ### Dispatch (R82, R86) -/

/-- Why bytes are no table or `B.cond` instruction. -/
inductive DecodeReject where
  /-- A word with `hb ≠ 0x54` and `op11` not in the table: the unknown instruction, which is executed (R102, R224). -/
  | unknownOpcode (w : Word)
  /-- Fewer than the four bytes every instruction has (R80). -/
  | truncated
deriving DecidableEq, Repr

/-- The table instruction a word with `hb ≠ 0x54` dispatches to. Under `by_imms` the words with op11 0x69A or 0x69B are
told apart by `imms` (R82, R86). DESIGN CHOICE (log 3; unsafe): under a configured table that moves the shifts or gives
0x69A or 0x69B to another instruction, `by_opcode` follows the table, and `by_imms` follows R86 at those two opcodes. The
spec does not say which holds there; under the default table R82 and R86 agree. -/
def dispatchOp11 (table : OpcodeTable) (split : ShiftSplit) (w : Word) : Option TableInstr :=
  match table.find (fieldOp11 w) with
  | none => none
  | some t =>
    if split = .byImms ∧ (fieldOp11 w = 0x69A#11 ∨ fieldOp11 w = 0x69B#11) then
      if fieldImms w = 63#6 then some .lsr else some .lsl
    else some t

/-- A `B.cond` word's instruction, by its condition code (R170, R178). -/
def decodeBCond (w : Word) : Instr :=
  if fieldCond w = 0x0#4 then .bEq (fieldImm19 w)
  else if fieldCond w = 0x1#4 then .bNe (fieldImm19 w)
  else if fieldCond w = 0xA#4 then .bGe (fieldImm19 w)
  else if fieldCond w = 0xB#4 then .bLt (fieldImm19 w)
  else if fieldCond w = 0xC#4 then .bGt (fieldImm19 w)
  else if fieldCond w = 0xD#4 then .bLe (fieldImm19 w)
  else .bUnrecognised (fieldCond w) (fieldImm19 w)

/-- A table instruction's operands, from the fields of its format (R84 to R91). -/
def decodeFields (t : TableInstr) (w : Word) : Instr :=
  match t with
  | .adds => .adds (fieldRd w) (fieldRn w) (fieldRm w)
  | .subs => .subs (fieldRd w) (fieldRn w) (fieldRm w)
  | .addis => .addis (fieldRd w) (fieldRn w) (fieldImm12 w)
  | .subis => .subis (fieldRd w) (fieldRn w) (fieldImm12 w) (fieldSh2 w)
  | .ands => .ands (fieldRd w) (fieldRn w) (fieldRm w)
  | .eor => .eor (fieldRd w) (fieldRn w) (fieldRm w)
  | .orr => .orr (fieldRd w) (fieldRn w) (fieldRm w)
  | .lsl => .lsl (fieldRd w) (fieldRn w) (fieldImms w)
  | .lsr => .lsr (fieldRd w) (fieldRn w) (fieldImmr w)
  | .movz => .movz (fieldRd w) (fieldImm16 w) (fieldHw w)
  | .stur => .stur (fieldRd w) (fieldRn w) (fieldImm9 w)
  | .sturb => .sturb (fieldRd w) (fieldRn w) (fieldImm9 w)
  | .sturh => .sturh (fieldRd w) (fieldRn w) (fieldImm9 w)
  | .ldur => .ldur (fieldRd w) (fieldRn w) (fieldImm9 w)
  | .ldurb => .ldurb (fieldRd w) (fieldRn w) (fieldImm9 w)
  | .ldurh => .ldurh (fieldRd w) (fieldRn w) (fieldImm9 w)
  | .b => .b (fieldImm26 w)
  | .br => .br (fieldRn w)
  | .hlt => .hlt

/-- The decoder: `hb = 0x54` first, then the table, else unknown (R82). Total on all words and reads nothing else (R112). -/
def decode (table : OpcodeTable) (split : ShiftSplit) (w : Word) : Except DecodeReject Instr :=
  if fieldHb w = 0x54#8 then .ok (decodeBCond w)
  else
    match dispatchOp11 table split w with
    | some t => .ok (decodeFields t w)
    | none => .error (.unknownOpcode w)

/-- The decoder on bytes as they lie in memory: the first four form the word (R80), the rest is handed back. -/
def decodeBytes (table : OpcodeTable) (split : ShiftSplit) (e : Endian) :
    List Byte → Except DecodeReject (Instr × List Byte)
  | b0 :: b1 :: b2 :: b3 :: rest =>
    match decode table split (wordOfBytes e b0 b1 b2 b3) with
    | .ok i => .ok (i, rest)
    | .error r => .error r
  | _ => .error .truncated

/-- The low `nbits` bits of `w` as an instruction word, every higher bit 0. -/
def tableWord (nbits w : Nat) : Word := BitVec.ofNat 32 (w % 2 ^ nbits)

/-- The instruction the decoder reads, under the default parameters, from the bytes of a word numbered as
`spec/opcode_table.json` numbers it. -/
def decodeTableWord (nbits w : Nat) : Option Instr :=
  let v := tableWord nbits w
  match decodeBytes defaultOpcodeTable defaultShiftSplit defaultEndian
      [byteOfWord defaultEndian v 0, byteOfWord defaultEndian v 1,
       byteOfWord defaultEndian v 2, byteOfWord defaultEndian v 3] with
  | .ok (i, _) => some i
  | .error _ => none

/-! ### The encoder -/

/-- Format R (R84), ignored bits written 0. -/
def encodeR (op11 : BitVec 11) (rd rn rm : RegIndex) : Word := op11 ++ rm ++ 0#6 ++ rn ++ rd

/-- Format D (R88), ignored bits written 0. -/
def encodeD (op11 : BitVec 11) (rt rn : RegIndex) (imm9 : BitVec 9) : Word := op11 ++ imm9 ++ 0#2 ++ rn ++ rt

/-- Format CB (R90), `w[4]` written 0. -/
def encodeCB (cond : BitVec 4) (imm19 : BitVec 19) : Word := 0x54#8 ++ imm19 ++ 0#1 ++ cond

/-- The word of a well-formed instruction under the default table (R95), the ignored bits written 0. LSL carries bit 21
set (op11 0x69B) and LSR `imms = 63`, so that the word means the same under both values of `SHIFT_SPLIT` (R86). -/
def encode : Instr → Word
  | .adds rd rn rm => encodeR 0x558#11 rd rn rm
  | .subs rd rn rm => encodeR 0x758#11 rd rn rm
  | .addis rd rn imm12 => 0xB1#8 ++ 0#2 ++ imm12 ++ rn ++ rd
  | .subis rd rn imm12 sh2 => 0xF1#8 ++ sh2 ++ imm12 ++ rn ++ rd
  | .ands rd rn rm => encodeR 0x750#11 rd rn rm
  | .eor rd rn rm => encodeR 0x650#11 rd rn rm
  | .orr rd rn rm => encodeR 0x550#11 rd rn rm
  | .lsl rd rn imms => 0x69B#11 ++ 0#5 ++ imms ++ rn ++ rd
  | .lsr rd rn immr => 0x34D#10 ++ immr ++ 63#6 ++ rn ++ rd
  | .movz rd imm16 hw => 0x1A5#9 ++ hw ++ imm16 ++ rd
  | .stur rt rn imm9 => encodeD 0x7C0#11 rt rn imm9
  | .sturb rt rn imm9 => encodeD 0x1C0#11 rt rn imm9
  | .sturh rt rn imm9 => encodeD 0x3C0#11 rt rn imm9
  | .ldur rt rn imm9 => encodeD 0x7C2#11 rt rn imm9
  | .ldurb rt rn imm9 => encodeD 0x1C2#11 rt rn imm9
  | .ldurh rt rn imm9 => encodeD 0x3C2#11 rt rn imm9
  | .b imm26 => 0x05#6 ++ imm26
  | .br rn => 0x6B0#11 ++ 0#11 ++ rn ++ 0#5
  | .hlt => 0x6A2#11 ++ 0#21
  | .bEq imm19 => encodeCB 0x0#4 imm19
  | .bNe imm19 => encodeCB 0x1#4 imm19
  | .bGe imm19 => encodeCB 0xA#4 imm19
  | .bLt imm19 => encodeCB 0xB#4 imm19
  | .bGt imm19 => encodeCB 0xC#4 imm19
  | .bLe imm19 => encodeCB 0xD#4 imm19
  | .bUnrecognised cond imm19 => encodeCB cond imm19

/-- The bits of an instruction's word that its rule does not name (R83). Bit 21 of LSL and the `imms` of LSR are
ignored only where `SHIFT_SPLIT` does not read them (R86). -/
def ignoredBits (split : ShiftSplit) : Instr → Word
  | .adds _ _ _ | .subs _ _ _ | .ands _ _ _ | .eor _ _ _ | .orr _ _ _ => 0x0000FC00#32
  | .addis _ _ _ | .subis _ _ _ _ | .movz _ _ _ | .b _ => 0#32
  | .lsl _ _ _ => match split with | .byOpcode => 0x001F0000#32 | .byImms => 0x003F0000#32
  | .lsr _ _ _ => match split with | .byOpcode => 0x0000FC00#32 | .byImms => 0#32
  | .stur _ _ _ | .sturb _ _ _ | .sturh _ _ _ | .ldur _ _ _ | .ldurb _ _ _ | .ldurh _ _ _ => 0x00000C00#32
  | .br _ => 0x001FFC1F#32
  | .hlt => 0x001FFFFF#32
  | .bEq _ | .bNe _ | .bGe _ | .bLt _ | .bGt _ | .bLe _ | .bUnrecognised _ _ => 0x00000010#32

end Sys2Proof
end

