-- ==== Sys2Proof/Machine/Params.lean ====
section
/-! DEFINITION. The parameter values of the machine at `State.reset`: the spec's defaults where it takes one (R10), and
the model's choice for the three OPEN parameters (`MEM_WINDOW`, `ENTRY_PC`, `INITIAL_MEMORY`). They are data that
`State.boot` reads; nothing else of the model depends on them. -/

namespace Sys2Proof.Machine

/-- `MEM_WINDOW` at reset. DESIGN CHOICE (log 4; unsafe): OPEN in the spec (D6); the set-up of `95_test_vectors.md`. -/
def defaultMemWindow : List Region := [⟨0x400000#64, 0x4FFFFF#64⟩]

/-- The default `ALIGN_POLICY` (D7). -/
def defaultAlignPolicy : AlignPolicy := .fault

/-- The default `NARROW_LOAD_EXT` (D9). -/
def defaultNarrowLoadExt : NarrowLoadExt := .sext64

/-- The parameters at reset (R10). -/
def defaultConfig : Config where
  opcodeTable := defaultOpcodeTable
  shiftSplit := defaultShiftSplit
  memWindow := defaultMemWindow
  alignPolicy := defaultAlignPolicy
  endian := defaultEndian
  narrowLoadExt := defaultNarrowLoadExt

/-- `ENTRY_PC` at reset. DESIGN CHOICE (log 5; unsafe): OPEN in the spec (D14); the set-up of `95_test_vectors.md`. -/
def defaultEntryPc : Addr := 0x400000#64

end Sys2Proof.Machine
end

