-- ==== Sys2Proof/Machine/State.lean ====
section
/-! DEFINITION. The state of a session (R20 to R40): the two copies of the processor-state record, the run signal,
memory, the outputs of the latest cycle and the parameters; why a step can stop; and the state after reset. -/

namespace Sys2Proof.Machine

/-- The processor-state record, `ProcessorState` (R31): 32 registers, PC, Z and N. -/
structure Proc where
  /-- `registers[0..31]` (R20). Slot 31 is never read nor written through `Proc.x` and `Proc.setX` (R21; log 19). -/
  regs : Vector DWord 32
  /-- `programCounter` (R24). -/
  pc : Addr
  /-- `flagZero` (R27). -/
  z : Bool
  /-- `flagNegative` (R27). -/
  n : Bool
deriving DecidableEq, Repr

/-- Memory contents as (address, byte) pairs, in the canonical form `Memory.wf` of `Machine/Ops.lean` (R36, R50). -/
abbrev Memory := List Host.Cell

/-- One access through a memory primitive: `readWord` and what it returned, or `writeWord` and what it stored (R50). -/
inductive BusAccess where
  | read (a : Addr) (v : Word)
  | write (a : Addr) (v : Word)
deriving DecidableEq, Repr

/-- A diagnostic event (R115). -/
inductive Diag where
  | decoded (id : InstrId)
  | unknownOpcode (w : Word)
  | unknownCond (cond : BitVec 4)
deriving DecidableEq, Repr

/-- What the core put on its output signals during the latest cycle (R115, R119): an output, which no instruction
reads. -/
structure CycleOut where
  /-- `mem_raddr`, `mem_rdata`, `mem_waddr`, `mem_wdata`, `mem_we`: the word accesses, in order. -/
  bus : List BusAccess
  /-- `run_clr`: HLT executed. -/
  runClr : Bool
  /-- `diag_out`: the diagnostic events, in order. -/
  diag : List Diag
deriving DecidableEq, Repr

/-- A session's whole state. -/
structure State where
  /-- The current record, immutable during a cycle (R33). -/
  cur : Proc
  /-- The next record, which a cycle writes (R33). -/
  nxt : Proc
  /-- The run signal (R32). -/
  running : Bool
  /-- Memory (R36). -/
  mem : Memory
  /-- The outputs of the latest cycle (R119). -/
  out : CycleOut
  /-- The parameters (R10): no step writes them. -/
  cfg : Config
deriving DecidableEq, Repr

/-- Why the machine stops with a fault. -/
inductive Fault where
  /-- `MemFault(a)`, the only fault (R241): raised by the fetch or a data access at `a` that is not admitted (R52, R55).
  Safe: it is the outcome the spec gives, and the state before the cycle stands (R120). -/
  | memFault (a : Addr)
deriving DecidableEq, Repr

/-- Why the model takes no step. -/
inductive Refusal where
  /-- No meaning yet for the instruction of this mnemonic. Safe. No arm of `exec` answers it. -/
  | notModelled (mnemonic : String)
  /-- `running` is false: the run has ended and the spec's treatment is `stuck` (R117, I13). Raised by `runLoopWith`.
  Safe: the spec says that a model must assume nothing here. -/
  | runEnded
  /-- The configured `OPCODE_TABLE` is no function listed in rising order: the configuration is rejected (I19). Raised by
  `runLoopWith`. Safe. -/
  | opcodeTableNotMap
deriving DecidableEq, Repr

/-- What executing an instruction or a step answers. -/
abbrev Result := Host.Outcome State Fault Refusal

/-- The record at session start: all zero but the entry point (R37, R38, R39). -/
def Proc.initial (entryPc : Addr) : Proc where
  regs := Vector.replicate 32 0#64
  pc := entryPc
  z := false
  n := false

/-- No output yet. -/
def CycleOut.empty : CycleOut where
  bus := []
  runClr := false
  diag := []

/-- A session's first state, for any parameters, `ENTRY_PC` and `INITIAL_MEMORY` (R37 to R40, R270 to R272). -/
def State.boot (cfg : Config) (entryPc : Addr) (initialMemory : Memory) : State where
  cur := Proc.initial entryPc
  nxt := Proc.initial entryPc
  running := true
  mem := initialMemory
  out := CycleOut.empty
  cfg := cfg

/-- The machine right after reset, under the default parameters and with no image loaded (log 4, 5, 6). -/
def State.reset : State := State.boot defaultConfig defaultEntryPc []

end Sys2Proof.Machine
end

