-- ==== Sys2Proof/Machine/Ops.lean ====
section
/-! DEFINITION. The named operations: registers and PC (R21, R24, R33), the run signal (R32), outputs (R115, R119), bytes
and words of memory (R50 to R57), the two memory primitives, the one fault (R241), and the start and commit of a cycle
(R34, R116). -/

namespace Sys2Proof.Machine

/-! ### Registers, PC, run signal -/

/-- Register `i` of a record: index 31 reads 0 (R21). -/
def Proc.x (p : Proc) (i : RegIndex) : DWord :=
  if i = xzr then 0#64 else p.regs[i.toNat]'(i.isLt)

/-- Write register `i` of a record: a write of index 31 is discarded (R21). -/
def Proc.setX (p : Proc) (i : RegIndex) (v : DWord) : Proc :=
  if i = xzr then p else { p with regs := p.regs.set i.toNat v i.isLt }

/-- `x[i]`: reads are of the current record (R13, R33). -/
def State.x (s : State) (i : RegIndex) : DWord := s.cur.x i

/-- `x[i] <- v`: writes are to the next record (R13, R33). -/
def State.setX (s : State) (i : RegIndex) (v : DWord) : State := { s with nxt := s.nxt.setX i v }

/-- `pc <- t` (R13). -/
def State.setPc (s : State) (t : Addr) : State := { s with nxt := { s.nxt with pc := t } }

/-- The generic sequencing rule `pc <- cur.PC + 4`, modulo 2^64 (R25, R223). -/
def State.advancePc (s : State) : State := s.setPc (s.cur.pc + 4#64)

/-- `running <- false`, with the `run_clr` pulse (R32, R119). It is written directly, not through `nxt`. -/
def State.clearRunning (s : State) : State :=
  { s with running := false, out := { s.out with runClr := true } }

/-! ### Outputs -/

/-- `diag(e)` (R13, R115). -/
def State.emit (s : State) (e : Diag) : State :=
  { s with out := { s.out with diag := s.out.diag ++ [e] } }

/-- An access appears on the memory signals (R119). -/
def State.logAccess (s : State) (b : BusAccess) : State :=
  { s with out := { s.out with bus := s.out.bus ++ [b] } }

/-! ### Bytes of memory -/

/-- What an address that the list does not hold reads as. DESIGN CHOICE (log 6; unsafe): bytes the image leaves out have
no stated value (R40, I4). -/
def unlistedByte : Byte := 0#8

/-- The byte at an address. -/
def Memory.read : Memory → Nat → Byte
  | [], _ => unlistedByte
  | (b, u) :: rest, a => if b = a then u else Memory.read rest a

/-- Put `v` at `a` in front of a list of higher addresses, listing nothing where `v` is what an unlisted address reads as. -/
def Memory.push (a : Nat) (v : Byte) (rest : Memory) : Memory :=
  if v = unlistedByte then rest else (a, v) :: rest

/-- Write one byte, keeping the canonical form. -/
def Memory.write : Memory → Nat → Byte → Memory
  | [], a, v => Memory.push a v []
  | (b, u) :: rest, a, v =>
    if b < a then (b, u) :: Memory.write rest a v
    else if b = a then Memory.push a v rest
    else Memory.push a v ((b, u) :: rest)

/-- Addresses rise strictly from `lo` on, and no entry is what an unlisted address reads as. -/
def Memory.wfFrom : Nat → Memory → Bool
  | _, [] => true
  | lo, (a, v) :: rest => decide (lo ≤ a) && v != unlistedByte && Memory.wfFrom (a + 1) rest

/-- The canonical form of memory. -/
def Memory.wf (m : Memory) : Bool := Memory.wfFrom 0 m

/-- The byte at a 64-bit address (R50, R51). -/
def State.byteAt (s : State) (a : Addr) : Byte := s.mem.read a.toNat

/-! ### The window and the alignment policy (R52, R55) -/

/-- The address lies in a provisioned run of addresses. -/
def Region.holds (r : Region) (a : Addr) : Bool := decide (r.first ≤ a) && decide (a ≤ r.last)

/-- `a ∈ MEM_WINDOW` (R52). -/
def inWindow (cfg : Config) (a : Addr) : Bool := cfg.memWindow.any fun r => Region.holds r a

/-- All four bytes a, a+1, a+2, a+3, each modulo 2^64, are in the window (R52). -/
def inRange (cfg : Config) (a : Addr) : Bool :=
  inWindow cfg a && inWindow cfg (a + 1#64) && inWindow cfg (a + 2#64) && inWindow cfg (a + 3#64)

/-- The alignment that `ALIGN_POLICY` asks for (R55). -/
def alignmentAllowed (cfg : Config) (a : Addr) : Bool :=
  match cfg.alignPolicy with
  | .fault => a.extractLsb' 0 2 == 0#2
  | .passthrough => true

/-- A word access at `a` is admitted; otherwise it raises `MemFault(a)` (R53, R54, R241). -/
def admits (cfg : Config) (a : Addr) : Bool := inRange cfg a && alignmentAllowed cfg a

/-! ### Words of memory (R53, R54) -/

/-- The word that `readWord(a)` returns where the access is admitted (R53). -/
def State.wordAt (s : State) (a : Addr) : Word :=
  wordOfBytes s.cfg.endian (s.byteAt a) (s.byteAt (a + 1#64)) (s.byteAt (a + 2#64)) (s.byteAt (a + 3#64))

/-- The four bytes of `v` stored at a to a+3 (R54). -/
def Memory.writeWord (m : Memory) (e : Endian) (a : Addr) (v : Word) : Memory :=
  (((m.write a.toNat (byteOfWord e v 0)).write (a + 1#64).toNat (byteOfWord e v 1)).write
    (a + 2#64).toNat (byteOfWord e v 2)).write (a + 3#64).toNat (byteOfWord e v 3)

/-- Memory after `writeWord(a, v)` where the access is admitted (R54). It changes at once, not at commit (R68). -/
def State.storeWord (s : State) (a : Addr) (v : Word) : State :=
  { s with mem := s.mem.writeWord s.cfg.endian a v }

/-! ### The fault and the primitives -/

/-- `raise MemFault(a)`: the cycle ends here with nothing committed; there is no trap entry (R120, R241, R245). -/
def raiseMemFault (a : Addr) : Result := .fault (.memFault a)

/-- `MemRead(a, 4)`, then the rest of the cycle with the word read (R53). -/
def State.withRead (s : State) (a : Addr) (rest : Word → State → Result) : Result :=
  if admits s.cfg a then rest (s.wordAt a) (s.logAccess (.read a (s.wordAt a))) else raiseMemFault a

/-- `MemWrite(a, 4, v)`, then the rest of the cycle (R54). -/
def State.withWrite (s : State) (a : Addr) (v : Word) (rest : State → Result) : Result :=
  if admits s.cfg a then rest ((s.storeWord a v).logAccess (.write a v)) else raiseMemFault a

/-! ### Ends of an instruction and of a cycle -/

/-- An instruction that does not own the PC completes: the generic PC rule and its one event (R111, R115, R223). -/
def State.finish (s : State) (e : Diag) : Result := .next (s.advancePc.emit e)

/-- An instruction that owns the PC completes at `t` (R115, R223). -/
def State.finishAt (s : State) (t : Addr) (e : Diag) : Result := .next ((s.setPc t).emit e)

/-- The start of a cycle: `nxt := cur` (R34), no output yet. -/
def State.beginCycle (s : State) : State := { s with nxt := s.cur, out := CycleOut.empty }

/-- The caller's commit: `cur := nxt`, field for field (R116). -/
def State.commit (s : State) : State := { s with cur := s.nxt }

end Sys2Proof.Machine
end

