-- ==== Sys2Proof/Machine/Operands.lean ====
section
/-! DEFINITION. Operand assembly: immediates (R96 to R100), shift amounts (R101), the effective address (R190), what the
narrow stores splice (R192, R193) and how the narrow loads widen (R197). -/

namespace Sys2Proof.Machine

/-- The ADDIS operand: imm12 zero-extended, never shifted (R96). -/
def addisOperand (imm12 : BitVec 12) : DWord := imm12.setWidth 64

/-- The SUBIS operand: imm12 zero-extended, shifted left by 12 exactly when `sh2 = 0b01` (R96). -/
def subisOperand (sh2 : BitVec 2) (imm12 : BitVec 12) : DWord :=
  if sh2 = 0b01#2 then imm12.setWidth 64 <<< 12 else imm12.setWidth 64

/-- The MOVZ value: imm16 zero-extended; `hw` never changes it (R97). -/
def movzValue (imm16 : BitVec 16) (_hw : BitVec 2) : DWord := imm16.setWidth 64

/-- The LSL amount `63 − imms` (R101). -/
def lslAmount (imms : BitVec 6) : Nat := 63 - imms.toNat

/-- The LSR amount `immr` (R101). -/
def lsrAmount (immr : BitVec 6) : Nat := immr.toNat

/-- The load and store offset: imm9 sign-extended, unscaled (R98). -/
def memOffset (imm9 : BitVec 9) : DWord := imm9.signExtend 64

/-- The `B.cond` offset: imm19 ++ 0b00, sign-extended (R99). -/
def condOffset (imm19 : BitVec 19) : DWord := (imm19 ++ 0b00#2).signExtend 64

/-- The B offset: imm26 ++ 0b00, sign-extended (R100). -/
def branchOffset (imm26 : BitVec 26) : DWord := (imm26 ++ 0b00#2).signExtend 64

/-- The effective address: base plus offset, modulo 2^64 (R190). -/
def effectiveAddress (s : State) (rn : RegIndex) (imm9 : BitVec 9) : Addr := s.x rn + memOffset imm9

/-- The word STUR stores: the register's low 32 bits (R191). -/
def storedWord (v : DWord) : Word := v.extractLsb' 0 32

/-- The word STURB writes back: the low 8 bits replaced (R192). -/
def spliceByte (old : Word) (v : DWord) : Word := old.extractLsb' 8 24 ++ v.extractLsb' 0 8

/-- The word STURH writes back: the low 16 bits replaced (R193). -/
def spliceHalf (old : Word) (v : DWord) : Word := old.extractLsb' 16 16 ++ v.extractLsb' 0 16

/-- `Widen8` (R197). -/
def widen8 (ext : NarrowLoadExt) (b : BitVec 8) : DWord :=
  match ext with
  | .sext64 => b.signExtend 64
  | .sext32Zext64 => (b.signExtend 32).setWidth 64
  | .zext64 => b.setWidth 64

/-- `Widen16` (R197). -/
def widen16 (ext : NarrowLoadExt) (h : BitVec 16) : DWord :=
  match ext with
  | .sext64 => h.signExtend 64
  | .sext32Zext64 => (h.signExtend 32).setWidth 64
  | .zext64 => h.setWidth 64

end Sys2Proof.Machine
end

