-- ==== Sys2Proof/Machine/Sequencing.lean ====
section
/-! DEFINITION. B, BR, HLT (R220 to R222), which instructions own the PC (R223), and the unknown instruction (R224). -/

namespace Sys2Proof.Machine

/-- B, R220. -/
def execB (imm26 : BitVec 26) (s : State) : Result :=
  s.finishAt (s.cur.pc + branchOffset imm26) (.decoded (.table .b))

/-- BR, R221: the register's value verbatim. -/
def execBr (rn : RegIndex) (s : State) : Result := s.finishAt (s.x rn) (.decoded (.table .br))

/-- HLT, R222: sequenced like any other instruction; only the run signal differs. -/
def execHlt (s : State) : Result := s.clearRunning.finish (.decoded (.table .hlt))

/-- The unknown instruction, R224: no effect but the PC and the diagnostic. -/
def execUnknown (w : Word) (s : State) : Result := s.finish (.unknownOpcode w)

/-- `owns_pc(id)`: B, BR and B.cond with any code set the PC themselves (R223). -/
def ownsPc : Instr → Bool
  | .b _ | .br _ => true
  | .bEq _ | .bNe _ | .bGe _ | .bLt _ | .bGt _ | .bLe _ | .bUnrecognised _ _ => true
  | .adds _ _ _ | .subs _ _ _ | .addis _ _ _ | .subis _ _ _ _ | .ands _ _ _ | .eor _ _ _ | .orr _ _ _ => false
  | .lsl _ _ _ | .lsr _ _ _ | .movz _ _ _ => false
  | .stur _ _ _ | .sturb _ _ _ | .sturh _ _ _ | .ldur _ _ _ | .ldurb _ _ _ | .ldurh _ _ _ => false
  | .hlt => false

end Sys2Proof.Machine
end

