-- ==== Sys2Proof/Machine/Cycle.lean ====
section
/-! DEFINITION. The cycle (R110 to R116) and the caller's run loop around it (R117), over the meaning of a decoded
instruction, which `Machine/Step.lean` supplies. -/

namespace Sys2Proof.Machine

/-- Execute the fetched word: the instruction it decodes to, or the unknown instruction (R82, R111, R224). -/
def executeWord (execute : Instr → State → Result) (w : Word) (s : State) : Result :=
  match decode s.cfg.opcodeTable s.cfg.shiftSplit w with
  | .ok i => execute i s
  | .error _ => execUnknown w s

/-- The transition of R111: `nxt := cur`, fetch at `cur.PC`, decode, execute. Its `next` is `Done(nxt, diag)`, not yet
committed. It does not test `running` (R117, R222). -/
def cycleWith (execute : Instr → State → Result) (s : State) : Result :=
  s.beginCycle.withRead s.cur.pc fun w s1 => executeWord execute w s1

/-- After `Done` the caller commits; after `Fault` it does not (R116, R120). -/
def commitDone : Result → Result
  | .next t => .next t.commit
  | .fault f => .fault f
  | .refused r => .refused r

/-- One turn of the caller's loop: a cycle and its commit, only while `running` (R117; I13), under an `OPCODE_TABLE` that
is a function (I19). -/
def runLoopWith (execute : Instr → State → Result) (s : State) : Result :=
  if s.cfg.opcodeTable.isMap then
    if s.running then commitDone (cycleWith execute s) else .refused .runEnded
  else .refused .opcodeTableNotMap

end Sys2Proof.Machine
end

