-- ==== Sys2Proof/Machine/Flags.lean ====
section
/-! DEFINITION. The two flags (R27 to R30) and the condition they decide (R171 to R178). -/

namespace Sys2Proof.Machine

/-- Z of a result: the 64-bit value is 0 (R29). -/
def flagZero (r : DWord) : Bool := r == 0#64

/-- N of a result: `sint(r) < 0` (R29). -/
def flagNegative (r : DWord) : Bool := decide (r.toInt < 0)

/-- `SetFlags(r)`: both flags, from the result before zero-register suppression (R28, R29, R132). -/
def State.setFlags (s : State) (r : DWord) : State :=
  { s with nxt := { s.nxt with z := flagZero r, n := flagNegative r } }

/-- `Cond(cond, Z, N)` on the six recognised codes (R171 to R177); a code outside them never holds (R178). -/
def condHolds (cond : BitVec 4) (z n : Bool) : Bool :=
  if cond = 0x0#4 then z
  else if cond = 0x1#4 then !z
  else if cond = 0xA#4 then !n
  else if cond = 0xB#4 then n
  else if cond = 0xC#4 then !z && !n
  else if cond = 0xD#4 then z || n
  else false

end Sys2Proof.Machine
end

