-- ==== Sys2Proof/Machine/Alu.lean ====
section
/-! DEFINITION. The arithmetic and logical instructions (R130 to R142). -/

namespace Sys2Proof.Machine

/-- `x[Rd] <- r; SetFlags(r)`, then the generic PC rule: the six flag-setting instructions (R27, R132). -/
def aluSetFlags (id : TableInstr) (rd : RegIndex) (r : DWord) (s : State) : Result :=
  ((s.setX rd r).setFlags r).finish (.decoded (.table id))

/-- `x[Rd] <- r`, then the generic PC rule: EOR, ORR, LSR and MOVZ leave the flags (R27). -/
def aluKeepFlags (id : TableInstr) (rd : RegIndex) (r : DWord) (s : State) : Result :=
  (s.setX rd r).finish (.decoded (.table id))

/-- ADDS (register), R133. -/
def execAdds (rd rn rm : RegIndex) (s : State) : Result := aluSetFlags .adds rd (s.x rn + s.x rm) s

/-- SUBS (register), R134. -/
def execSubs (rd rn rm : RegIndex) (s : State) : Result := aluSetFlags .subs rd (s.x rn - s.x rm) s

/-- ADDIS, R135. -/
def execAddis (rd rn : RegIndex) (imm12 : BitVec 12) (s : State) : Result :=
  aluSetFlags .addis rd (s.x rn + addisOperand imm12) s

/-- SUBIS, R136. -/
def execSubis (rd rn : RegIndex) (imm12 : BitVec 12) (sh2 : BitVec 2) (s : State) : Result :=
  aluSetFlags .subis rd (s.x rn - subisOperand sh2 imm12) s

/-- ANDS, R137. -/
def execAnds (rd rn rm : RegIndex) (s : State) : Result := aluSetFlags .ands rd (s.x rn &&& s.x rm) s

/-- EOR, R138. -/
def execEor (rd rn rm : RegIndex) (s : State) : Result := aluKeepFlags .eor rd (s.x rn ^^^ s.x rm) s

/-- ORR, R139. -/
def execOrr (rd rn rm : RegIndex) (s : State) : Result := aluKeepFlags .orr rd (s.x rn ||| s.x rm) s

/-- LSL (immediate), R140. -/
def execLsl (rd rn : RegIndex) (imms : BitVec 6) (s : State) : Result :=
  aluSetFlags .lsl rd (s.x rn <<< lslAmount imms) s

/-- LSR (immediate), R141. -/
def execLsr (rd rn : RegIndex) (immr : BitVec 6) (s : State) : Result :=
  aluKeepFlags .lsr rd (s.x rn >>> lsrAmount immr) s

/-- MOVZ, R142. -/
def execMovz (rd : RegIndex) (imm16 : BitVec 16) (hw : BitVec 2) (s : State) : Result :=
  aluKeepFlags .movz rd (movzValue imm16 hw) s

end Sys2Proof.Machine
end

