-- ==== Sys2Proof/Machine/CondBranch.lean ====
section
/-! DEFINITION. B.cond (R170 to R179): it reads the current flags, writes no flag, and owns the PC in both outcomes. -/

namespace Sys2Proof.Machine

/-- `B.cond` with a recognised code: to the target if the condition holds of `cur.Z` and `cur.N`, else to
`cur.PC + 4` (R170, R171). -/
def branchOnCond (cond : BitVec 4) (imm19 : BitVec 19) (s : State) : Result :=
  s.finishAt (if condHolds cond s.cur.z s.cur.n then s.cur.pc + condOffset imm19 else s.cur.pc + 4#64)
    (.decoded .bCond)

/-- B.EQ, R172. -/
def execBEq (imm19 : BitVec 19) (s : State) : Result := branchOnCond 0x0#4 imm19 s

/-- B.NE, R173. -/
def execBNe (imm19 : BitVec 19) (s : State) : Result := branchOnCond 0x1#4 imm19 s

/-- B.GE, R174. -/
def execBGe (imm19 : BitVec 19) (s : State) : Result := branchOnCond 0xA#4 imm19 s

/-- B.LT, R175. -/
def execBLt (imm19 : BitVec 19) (s : State) : Result := branchOnCond 0xB#4 imm19 s

/-- B.GT, R176. -/
def execBGt (imm19 : BitVec 19) (s : State) : Result := branchOnCond 0xC#4 imm19 s

/-- B.LE, R177. -/
def execBLe (imm19 : BitVec 19) (s : State) : Result := branchOnCond 0xD#4 imm19 s

/-- B.cond with any other code: never taken, and reported (R178). -/
def execBUnrecognised (cond : BitVec 4) (_imm19 : BitVec 19) (s : State) : Result :=
  s.finishAt (s.cur.pc + 4#64) (.unknownCond cond)

end Sys2Proof.Machine
end

