-- ==== Sys2Proof/Machine/LoadStore.lean ====
section
/-! DEFINITION. Loads and stores (R190 to R199): word accesses in the order of R58, each of which may end the cycle with
`MemFault`. -/

namespace Sys2Proof.Machine

/-- The read-modify-write of STURB and STURH: read the word at `ea`, write `splice old` back (R58). -/
def storeSpliced (id : TableInstr) (ea : Addr) (splice : Word → Word) (s : State) : Result :=
  s.withRead ea fun old s1 => s1.withWrite ea (splice old) fun s2 => s2.finish (.decoded (.table id))

/-- The one read of LDURB and LDURH: `x[Rt]` gets `widen` of the word at `ea` (R58). -/
def loadNarrow (id : TableInstr) (rt : RegIndex) (ea : Addr) (widen : Word → DWord) (s : State) : Result :=
  s.withRead ea fun v s1 => (s1.setX rt (widen v)).finish (.decoded (.table id))

/-- STUR, R191: only the low 32 bits are stored (C6). -/
def execStur (rt rn : RegIndex) (imm9 : BitVec 9) (s : State) : Result :=
  s.withWrite (effectiveAddress s rn imm9) (storedWord (s.x rt)) fun s1 => s1.finish (.decoded (.table .stur))

/-- STURB, R192. -/
def execSturb (rt rn : RegIndex) (imm9 : BitVec 9) (s : State) : Result :=
  storeSpliced .sturb (effectiveAddress s rn imm9) (fun old => spliceByte old (s.x rt)) s

/-- STURH, R193. -/
def execSturh (rt rn : RegIndex) (imm9 : BitVec 9) (s : State) : Result :=
  storeSpliced .sturh (effectiveAddress s rn imm9) (fun old => spliceHalf old (s.x rt)) s

/-- LDUR, R194: the word at EA is the low half, the word at EA + 4 the high half; both are read even for Rt = 31. -/
def execLdur (rt rn : RegIndex) (imm9 : BitVec 9) (s : State) : Result :=
  s.withRead (effectiveAddress s rn imm9) fun lo s1 =>
    s1.withRead (effectiveAddress s rn imm9 + 4#64) fun hi s2 =>
      (s2.setX rt (hi ++ lo)).finish (.decoded (.table .ldur))

/-- LDURB, R195. -/
def execLdurb (rt rn : RegIndex) (imm9 : BitVec 9) (s : State) : Result :=
  loadNarrow .ldurb rt (effectiveAddress s rn imm9) (fun v => widen8 s.cfg.narrowLoadExt (v.extractLsb' 0 8)) s

/-- LDURH, R196. -/
def execLdurh (rt rn : RegIndex) (imm9 : BitVec 9) (s : State) : Result :=
  loadNarrow .ldurh rt (effectiveAddress s rn imm9) (fun v => widen16 s.cfg.narrowLoadExt (v.extractLsb' 0 16)) s

end Sys2Proof.Machine
end

