-- ==== Sys2Proof/Machine/Dispatch.lean ====
section
/-! DEFINITION. One arm per instruction. -/

namespace Sys2Proof.Machine

def exec (i : Instr) (s : State) : Host.Outcome State Fault Refusal :=
  match i with
  | .adds rd rn rm => Sys2Proof.Machine.execAdds rd rn rm s
  | .subs rd rn rm => Sys2Proof.Machine.execSubs rd rn rm s
  | .addis rd rn imm12 => Sys2Proof.Machine.execAddis rd rn imm12 s
  | .subis rd rn imm12 sh2 => Sys2Proof.Machine.execSubis rd rn imm12 sh2 s
  | .ands rd rn rm => Sys2Proof.Machine.execAnds rd rn rm s
  | .eor rd rn rm => Sys2Proof.Machine.execEor rd rn rm s
  | .orr rd rn rm => Sys2Proof.Machine.execOrr rd rn rm s
  | .lsl rd rn imms => Sys2Proof.Machine.execLsl rd rn imms s
  | .lsr rd rn immr => Sys2Proof.Machine.execLsr rd rn immr s
  | .movz rd imm16 hw => Sys2Proof.Machine.execMovz rd imm16 hw s
  | .stur rt rn imm9 => Sys2Proof.Machine.execStur rt rn imm9 s
  | .sturb rt rn imm9 => Sys2Proof.Machine.execSturb rt rn imm9 s
  | .sturh rt rn imm9 => Sys2Proof.Machine.execSturh rt rn imm9 s
  | .ldur rt rn imm9 => Sys2Proof.Machine.execLdur rt rn imm9 s
  | .ldurb rt rn imm9 => Sys2Proof.Machine.execLdurb rt rn imm9 s
  | .ldurh rt rn imm9 => Sys2Proof.Machine.execLdurh rt rn imm9 s
  | .b imm26 => Sys2Proof.Machine.execB imm26 s
  | .br rn => Sys2Proof.Machine.execBr rn s
  | .hlt => Sys2Proof.Machine.execHlt s
  | .bEq imm19 => Sys2Proof.Machine.execBEq imm19 s
  | .bNe imm19 => Sys2Proof.Machine.execBNe imm19 s
  | .bGe imm19 => Sys2Proof.Machine.execBGe imm19 s
  | .bLt imm19 => Sys2Proof.Machine.execBLt imm19 s
  | .bGt imm19 => Sys2Proof.Machine.execBGt imm19 s
  | .bLe imm19 => Sys2Proof.Machine.execBLe imm19 s
  | .bUnrecognised cond imm19 => Sys2Proof.Machine.execBUnrecognised cond imm19 s

end Sys2Proof.Machine
end

