-- ==== Sys2Proof/Machine/Step.lean ====
section
/-! DEFINITION. The cycle and the step of this machine, and the state that makes the next step run a given word. -/

namespace Sys2Proof.Machine

/-- The core's transition (R110, R111), before the commit. -/
def cycle (s : State) : Host.Outcome State Fault Refusal := cycleWith exec s

/-- One turn of the session: poll `running`, cycle, commit (R116, R117). -/
def step (s : State) : Host.Outcome State Fault Refusal := runLoopWith exec s

/-- `s` with the word stored where the next cycle fetches (R80), in the session's byte order: it stands for the external
loader (R272; log 15). -/
def State.withFetchWord (s : State) (nbits w : Nat) : State := s.storeWord s.cur.pc (tableWord nbits w)

end Sys2Proof.Machine
end

