-- ==== Sys2Proof/Machine/Pseudo.lean ====
section
/-! DEFINITION. Other spellings of the same words: the pseudo-instructions (R105) and the fields an assembler writes for
`LSL #s` and `LSR #s` (R104). They add no instruction. -/

namespace Sys2Proof.Machine

/-- `CMP Xn, Xm` (R105). -/
def cmpReg (rn rm : RegIndex) : Instr := .subs xzr rn rm

/-- `CMP Xn, #imm{, LSL #12}` (R105, R136). -/
def cmpImm (rn : RegIndex) (imm12 : BitVec 12) (sh2 : BitVec 2) : Instr := .subis xzr rn imm12 sh2

/-- `CMN Xn, Xm` (R105). -/
def cmnReg (rn rm : RegIndex) : Instr := .adds xzr rn rm

/-- `CMN Xn, #imm` (R105). -/
def cmnImm (rn : RegIndex) (imm12 : BitVec 12) : Instr := .addis xzr rn imm12

/-- `TST Xn, Xm` (R105). -/
def tstReg (rn rm : RegIndex) : Instr := .ands xzr rn rm

/-- `NEGS Xd, Xm` (R105). -/
def negsReg (rd rm : RegIndex) : Instr := .subs rd xzr rm

/-- `MOV Xd, Xm` (R105). -/
def movReg (rd rm : RegIndex) : Instr := .orr rd xzr rm

/-- `MOV Xd, #imm16` (R105). -/
def movImm (rd : RegIndex) (imm16 : BitVec 16) : Instr := .movz rd imm16 0#2

/-- A shift word with the given fields, as an A64 assembler lays it out (R86, R104). -/
def assembledShift (immr imms : BitVec 6) (rn rd : RegIndex) : Word := 0x34D#10 ++ immr ++ imms ++ rn ++ rd

/-- What an assembler writes for `LSL Xd, Xn, #s`: `immr = (64 − s) mod 64`, `imms = 63 − s` (R104). -/
def assembledLsl (rd rn : RegIndex) (s : Nat) : Word :=
  assembledShift (BitVec.ofNat 6 (64 - s)) (BitVec.ofNat 6 (63 - s)) rn rd

/-- What an assembler writes for `LSR Xd, Xn, #s`: `immr = s`, `imms = 63` (R104). -/
def assembledLsr (rd rn : RegIndex) (s : Nat) : Word := assembledShift (BitVec.ofNat 6 s) 63#6 rn rd

end Sys2Proof.Machine
end

