-- ==== Sys2Proof/Safety.lean ====
section
/-! DEFINITION. The terms in which claims about the machine are made: what the rules say each instruction may write,
access and report; frames; when an access is admitted; the invariant of a session. -/

namespace Sys2Proof.Machine

/-! ### What the rules say of each instruction -/

/-- The one general register an instruction writes, `w[4:0]` of its word, or none (R23). -/
def destination : Instr → Option RegIndex
  | .adds rd _ _ | .subs rd _ _ | .addis rd _ _ | .subis rd _ _ _ | .ands rd _ _ => some rd
  | .eor rd _ _ | .orr rd _ _ | .lsl rd _ _ | .lsr rd _ _ | .movz rd _ _ => some rd
  | .ldur rt _ _ | .ldurb rt _ _ | .ldurh rt _ _ => some rt
  | .stur _ _ _ | .sturb _ _ _ | .sturh _ _ _ => none
  | .b _ | .br _ | .hlt => none
  | .bEq _ | .bNe _ | .bGe _ | .bLt _ | .bGt _ | .bLe _ | .bUnrecognised _ _ => none

/-- The six instructions that write Z and N (R27). -/
def setsFlags : Instr → Bool
  | .adds _ _ _ | .subs _ _ _ | .addis _ _ _ | .subis _ _ _ _ | .ands _ _ _ | .lsl _ _ _ => true
  | .eor _ _ _ | .orr _ _ _ | .lsr _ _ _ | .movz _ _ _ => false
  | .stur _ _ _ | .sturb _ _ _ | .sturh _ _ _ | .ldur _ _ _ | .ldurb _ _ _ | .ldurh _ _ _ => false
  | .b _ | .br _ | .hlt => false
  | .bEq _ | .bNe _ | .bGe _ | .bLt _ | .bGt _ | .bLe _ | .bUnrecognised _ _ => false

/-- The 64-bit result a flag-setting instruction computes and takes both flags from, or none for any other instruction
(R132 to R137, R140). It does not depend on the destination, 31 included. -/
def flagResult (i : Instr) (s : State) : Option DWord :=
  match i with
  | .adds _ rn rm => some (s.x rn + s.x rm)
  | .subs _ rn rm => some (s.x rn - s.x rm)
  | .addis _ rn imm12 => some (s.x rn + imm12.setWidth 64)
  | .subis _ rn imm12 sh2 =>
    some (s.x rn - (if sh2 = 0b01#2 then imm12.setWidth 64 <<< 12 else imm12.setWidth 64))
  | .ands _ rn rm => some (s.x rn &&& s.x rm)
  | .lsl _ rn imms => some (s.x rn <<< (63 - imms.toNat))
  | .eor _ _ _ | .orr _ _ _ | .lsr _ _ _ | .movz _ _ _ => none
  | .stur _ _ _ | .sturb _ _ _ | .sturh _ _ _ | .ldur _ _ _ | .ldurb _ _ _ | .ldurh _ _ _ => none
  | .b _ | .br _ | .hlt => none
  | .bEq _ | .bNe _ | .bGe _ | .bLt _ | .bGt _ | .bLe _ | .bUnrecognised _ _ => none

/-- B.cond with a recognised code: the readers of the flags (R27, R171). -/
def readsFlags : Instr → Bool
  | .bEq _ | .bNe _ | .bGe _ | .bLt _ | .bGt _ | .bLe _ => true
  | .adds _ _ _ | .subs _ _ _ | .addis _ _ _ | .subis _ _ _ _ | .ands _ _ _ | .lsl _ _ _ => false
  | .eor _ _ _ | .orr _ _ _ | .lsr _ _ _ | .movz _ _ _ => false
  | .stur _ _ _ | .sturb _ _ _ | .sturh _ _ _ | .ldur _ _ _ | .ldurb _ _ _ | .ldurh _ _ _ => false
  | .b _ | .br _ | .hlt | .bUnrecognised _ _ => false

/-- The address of the one word an instruction stores, or none (R58). -/
def storeAddress (i : Instr) (s : State) : Option Addr :=
  match i with
  | .stur _ rn imm9 | .sturb _ rn imm9 | .sturh _ rn imm9 => some (effectiveAddress s rn imm9)
  | .ldur _ _ _ | .ldurb _ _ _ | .ldurh _ _ _ => none
  | .adds _ _ _ | .subs _ _ _ | .addis _ _ _ | .subis _ _ _ _ | .ands _ _ _ | .lsl _ _ _ => none
  | .eor _ _ _ | .orr _ _ _ | .lsr _ _ _ | .movz _ _ _ => none
  | .b _ | .br _ | .hlt => none
  | .bEq _ | .bNe _ | .bGe _ | .bLt _ | .bGt _ | .bLe _ | .bUnrecognised _ _ => none

/-- The word accesses an instruction performs after the fetch, in order, where all are admitted (R58). -/
def dataAccesses (i : Instr) (s : State) : List BusAccess :=
  match i with
  | .stur rt rn imm9 => [.write (effectiveAddress s rn imm9) (storedWord (s.x rt))]
  | .sturb rt rn imm9 =>
    [.read (effectiveAddress s rn imm9) (s.wordAt (effectiveAddress s rn imm9)),
     .write (effectiveAddress s rn imm9) (spliceByte (s.wordAt (effectiveAddress s rn imm9)) (s.x rt))]
  | .sturh rt rn imm9 =>
    [.read (effectiveAddress s rn imm9) (s.wordAt (effectiveAddress s rn imm9)),
     .write (effectiveAddress s rn imm9) (spliceHalf (s.wordAt (effectiveAddress s rn imm9)) (s.x rt))]
  | .ldur _ rn imm9 =>
    [.read (effectiveAddress s rn imm9) (s.wordAt (effectiveAddress s rn imm9)),
     .read (effectiveAddress s rn imm9 + 4#64) (s.wordAt (effectiveAddress s rn imm9 + 4#64))]
  | .ldurb _ rn imm9 | .ldurh _ rn imm9 =>
    [.read (effectiveAddress s rn imm9) (s.wordAt (effectiveAddress s rn imm9))]
  | .adds _ _ _ | .subs _ _ _ | .addis _ _ _ | .subis _ _ _ _ | .ands _ _ _ | .lsl _ _ _ => []
  | .eor _ _ _ | .orr _ _ _ | .lsr _ _ _ | .movz _ _ _ => []
  | .b _ | .br _ | .hlt => []
  | .bEq _ | .bNe _ | .bGe _ | .bLt _ | .bGt _ | .bLe _ | .bUnrecognised _ _ => []

/-- The address of an access. -/
def BusAccess.addr : BusAccess → Addr
  | .read a _ => a
  | .write a _ => a

/-- The access is a `readWord`. -/
def BusAccess.isRead : BusAccess → Bool
  | .read _ _ => true
  | .write _ _ => false

/-- The one diagnostic event a completed instruction emits (R115, R170, R178). -/
def eventOf : Instr → Diag
  | .adds _ _ _ => .decoded (.table .adds)
  | .subs _ _ _ => .decoded (.table .subs)
  | .addis _ _ _ => .decoded (.table .addis)
  | .subis _ _ _ _ => .decoded (.table .subis)
  | .ands _ _ _ => .decoded (.table .ands)
  | .eor _ _ _ => .decoded (.table .eor)
  | .orr _ _ _ => .decoded (.table .orr)
  | .lsl _ _ _ => .decoded (.table .lsl)
  | .lsr _ _ _ => .decoded (.table .lsr)
  | .movz _ _ _ => .decoded (.table .movz)
  | .stur _ _ _ => .decoded (.table .stur)
  | .sturb _ _ _ => .decoded (.table .sturb)
  | .sturh _ _ _ => .decoded (.table .sturh)
  | .ldur _ _ _ => .decoded (.table .ldur)
  | .ldurb _ _ _ => .decoded (.table .ldurb)
  | .ldurh _ _ _ => .decoded (.table .ldurh)
  | .b _ => .decoded (.table .b)
  | .br _ => .decoded (.table .br)
  | .hlt => .decoded (.table .hlt)
  | .bEq _ | .bNe _ | .bGe _ | .bLt _ | .bGt _ | .bLe _ => .decoded .bCond
  | .bUnrecognised cond _ => .unknownCond cond

/-! ### The cycle of a state -/

/-- The word at `cur.PC`, which the cycle fetches (R80). -/
def fetchedWord (s : State) : Word := s.wordAt s.cur.pc

/-- The instruction the cycle decodes, or none for the unknown instruction (R112). -/
def fetchedInstr (s : State) : Option Instr :=
  match decode s.cfg.opcodeTable s.cfg.shiftSplit (fetchedWord s) with
  | .ok i => some i
  | .error _ => none

/-- The word accesses of a whole cycle, in order, up to any that faults: the fetch, then the instruction's (R58, R63). -/
def cycleAccesses (s : State) : List BusAccess :=
  .read s.cur.pc (fetchedWord s) ::
    match fetchedInstr s with
    | some i => dataAccesses i s
    | none => []

/-- The event of a cycle that completes (R115). -/
def cycleEvent (s : State) : Diag :=
  match fetchedInstr s with
  | some i => eventOf i
  | none => .unknownOpcode (fetchedWord s)

/-- A session in which the caller takes a step: it is running and its parameters are a configuration (R117, I19). -/
def State.live (s : State) : Bool := s.running && s.cfg.opcodeTable.isMap

/-! ### Admission, in the words of R52 and R55 -/

/-- All four bytes of the word at `a` are in `MEM_WINDOW` (R52), and `a` is a multiple of 4 unless `ALIGN_POLICY` is
`passthrough` (R55). -/
def Admissible (cfg : Config) (a : Addr) : Prop :=
  (∀ k : Nat, k < 4 → ∃ r ∈ cfg.memWindow,
      r.first.toNat ≤ (a + BitVec.ofNat 64 k).toNat ∧ (a + BitVec.ofNat 64 k).toNat ≤ r.last.toNat) ∧
    (cfg.alignPolicy = .passthrough ∨ a.toNat % 4 = 0)

/-! ### Frames: what a completed instruction, from `s` to `t`, leaves -/

/-- The next record gets `v` in register `rd`, unless `rd` is 31, and no other register is written (R21, R23). -/
def WritesReg (s t : State) (rd : RegIndex) (v : DWord) : Prop :=
  ∀ i, t.nxt.x i = if i = rd ∧ i ≠ xzr then v else s.nxt.x i

/-- No register of the next record is written. -/
def KeepsRegs (s t : State) : Prop := ∀ i, t.nxt.x i = s.nxt.x i

/-- Both flags of the next record are those of the 64-bit result `r` (R28, R29). -/
def SetsFlagsFrom (t : State) (r : DWord) : Prop :=
  (t.nxt.z = true ↔ r = 0#64) ∧ (t.nxt.n = true ↔ r.toInt < 0)

/-- Neither flag of the next record is written. -/
def KeepsFlags (s t : State) : Prop := t.nxt.z = s.nxt.z ∧ t.nxt.n = s.nxt.n

/-- Every byte of memory reads as before. -/
def KeepsMemory (s t : State) : Prop := ∀ a : Addr, t.byteAt a = s.byteAt a

/-- The word at `a` is now `v`, and every other byte of memory reads as before. -/
def StoresWord (s t : State) (a : Addr) (v : Word) : Prop :=
  t.wordAt a = v ∧
    ∀ b : Addr, b ≠ a → b ≠ a + 1#64 → b ≠ a + 2#64 → b ≠ a + 3#64 → t.byteAt b = s.byteAt b

/-- The current record and the parameters are untouched (R10, R33). -/
def KeepsCurrent (s t : State) : Prop := t.cur = s.cur ∧ t.cfg = s.cfg

/-- The cycle's outputs grow by these accesses and this one event (R58, R115). -/
def Reports (s t : State) (accesses : List BusAccess) (e : Diag) : Prop :=
  t.out.bus = s.out.bus ++ accesses ∧ t.out.diag = s.out.diag ++ [e]

/-- `res` is a completed ALU instruction: result `r` to `rd`, flags as `flags` says, PC + 4, nothing else (R133 to R142). -/
def CompletesAlu (s : State) (res : Result) (id : TableInstr) (rd : RegIndex) (r : DWord) (flags : Bool) : Prop :=
  ∃ t, res = .next t ∧ WritesReg s t rd r ∧
    (if flags then SetsFlagsFrom t r else KeepsFlags s t) ∧
    t.nxt.pc = s.cur.pc + 4#64 ∧ t.running = s.running ∧ t.out.runClr = s.out.runClr ∧
    KeepsMemory s t ∧ KeepsCurrent s t ∧ Reports s t [] (.decoded (.table id))

/-- `res` is a completed branch to `target`, reporting `e`: no register, flag, memory or run-signal change. -/
def CompletesBranch (s : State) (res : Result) (target : Addr) (e : Diag) : Prop :=
  ∃ t, res = .next t ∧ t.nxt.pc = target ∧ KeepsRegs s t ∧ KeepsFlags s t ∧
    t.running = s.running ∧ t.out.runClr = s.out.runClr ∧
    KeepsMemory s t ∧ KeepsCurrent s t ∧ Reports s t [] e

/-- `res` is a completed store of `v` at `a`: no register or flag change, PC + 4 (R191 to R193, R198). -/
def CompletesStore (s : State) (res : Result) (id : TableInstr) (a : Addr) (v : Word)
    (accesses : List BusAccess) : Prop :=
  ∃ t, res = .next t ∧ StoresWord s t a v ∧ KeepsRegs s t ∧ KeepsFlags s t ∧
    t.nxt.pc = s.cur.pc + 4#64 ∧ t.running = s.running ∧ t.out.runClr = s.out.runClr ∧
    KeepsCurrent s t ∧ Reports s t accesses (.decoded (.table id))

/-- `res` is a completed load of `v` into `rt`: no flag or memory change, PC + 4 (R194 to R198). -/
def CompletesLoad (s : State) (res : Result) (id : TableInstr) (rt : RegIndex) (v : DWord)
    (accesses : List BusAccess) : Prop :=
  ∃ t, res = .next t ∧ WritesReg s t rt v ∧ KeepsFlags s t ∧
    t.nxt.pc = s.cur.pc + 4#64 ∧ t.running = s.running ∧ t.out.runClr = s.out.runClr ∧
    KeepsMemory s t ∧ KeepsCurrent s t ∧ Reports s t accesses (.decoded (.table id))

/-! ### The invariant of a session -/

/-- Every listed byte has a 64-bit address in the window: nothing was ever stored outside `MEM_WINDOW` (R52). -/
def Memory.within (cfg : Config) (m : Memory) : Prop :=
  ∀ c ∈ m, c.1 < 2 ^ 64 ∧ inWindow cfg (BitVec.ofNat 64 c.1) = true

/-- What holds between any two cycles of a session: the two copies agree (R34, R116), the stored slot 31 is 0 (R21), memory
is canonical and inside the window (R52), and the configuration is one (I19). -/
structure State.Inv (s : State) : Prop where
  copies : s.nxt = s.cur
  zeroSlot : s.cur.regs[31] = 0#64
  memWf : s.mem.wf = true
  memWithin : Memory.within s.cfg s.mem
  table : s.cfg.opcodeTable.isMap = true

/-- Two sessions that differ only in `ENDIAN` and in how the bytes of each aligned word lie in memory (R57): the same
records, run signal, outputs and other parameters, `ALIGN_POLICY = fault`, and the same word at every aligned address. -/
structure SameUpToEndian (s s' : State) : Prop where
  cur : s'.cur = s.cur
  nxt : s'.nxt = s.nxt
  running : s'.running = s.running
  out : s'.out = s.out
  cfg : s'.cfg = { s.cfg with endian := s'.cfg.endian }
  policy : s.cfg.alignPolicy = .fault
  memWf : s.mem.wf = true
  memWf' : s'.mem.wf = true
  words : ∀ a : Addr, a.toNat % 4 = 0 → s'.wordAt a = s.wordAt a

/-- The rows of R95's table as its last columns give them: word mask, word match, instruction. -/
def r95Rows : List (Word × Word × TableInstr) :=
  [ (0xFFE00000#32, 0xAB000000#32, .adds), (0xFFE00000#32, 0xEB000000#32, .subs),
    (0xFFC00000#32, 0xB1000000#32, .addis), (0xFF800000#32, 0xF1000000#32, .subis),
    (0xFFE00000#32, 0xEA000000#32, .ands), (0xFFE00000#32, 0xCA000000#32, .eor),
    (0xFFE00000#32, 0xAA000000#32, .orr), (0xFFE00000#32, 0xD3600000#32, .lsl),
    (0xFFE00000#32, 0xD3400000#32, .lsr), (0xFF800000#32, 0xD2800000#32, .movz),
    (0xFFE00000#32, 0xF8000000#32, .stur), (0xFFE00000#32, 0x38000000#32, .sturb),
    (0xFFE00000#32, 0x78000000#32, .sturh), (0xFFE00000#32, 0xF8400000#32, .ldur),
    (0xFFE00000#32, 0x38400000#32, .ldurb), (0xFFE00000#32, 0x78400000#32, .ldurh),
    (0xFC000000#32, 0x14000000#32, .b), (0xFFE00000#32, 0xD6000000#32, .br),
    (0xFFE00000#32, 0xD4400000#32, .hlt) ]

/-- The next step meets no fault: what "safe" means for this machine, whose only fault is `MemFault` (R240, R241). -/
def FaultFree (s : State) : Prop := ∀ f, step s ≠ .fault f

end Sys2Proof.Machine
end

