-- ==== Sys2Proof/Certificates/Slice0/Obligations.lean ====
section
/-! DEFINITION. The statements for the provers. Each docstring names the rule it formalises. An instruction's statement
says three things: which words decode to it under the default table (R95), that it completes and with what state, and
what it leaves unchanged. `s.nxt` is what the next record held before; the cycle starts with `nxt = cur` (R34). That the
default table's opcode values are these is what R133 to R142, R191 to R196 and R220 to R222 say; R95 marks them as taken
from general knowledge (log 2). -/

open Sys2Proof Sys2Proof.Machine

/-! ### Arithmetic and logic (41_alu.md) -/

/-- R133: ADDS (register). -/
def Obligations.AddsWritesSumAndFlags : Prop :=
  (∀ split w, w.extractLsb' 21 11 = 0x558#11 →
    decode defaultOpcodeTable split w =
      .ok (.adds (w.extractLsb' 0 5) (w.extractLsb' 5 5) (w.extractLsb' 16 5))) ∧
  ∀ rd rn rm s, CompletesAlu s (exec (.adds rd rn rm) s) .adds rd (s.x rn + s.x rm) true

/-- R134: SUBS (register). -/
def Obligations.SubsWritesDifferenceAndFlags : Prop :=
  (∀ split w, w.extractLsb' 21 11 = 0x758#11 →
    decode defaultOpcodeTable split w =
      .ok (.subs (w.extractLsb' 0 5) (w.extractLsb' 5 5) (w.extractLsb' 16 5))) ∧
  ∀ rd rn rm s, CompletesAlu s (exec (.subs rd rn rm) s) .subs rd (s.x rn - s.x rm) true

/-- R135: ADDIS; the words with `sh2 = 01` are unknown. -/
def Obligations.AddisAddsZeroExtendedImmediate : Prop :=
  (∀ split w, w.extractLsb' 21 11 ∈ [0x588#11, 0x589#11] →
    decode defaultOpcodeTable split w =
      .ok (.addis (w.extractLsb' 0 5) (w.extractLsb' 5 5) (w.extractLsb' 10 12))) ∧
  (∀ split w, w.extractLsb' 21 11 ∈ [0x58A#11, 0x58B#11] →
    decode defaultOpcodeTable split w = .error (.unknownOpcode w)) ∧
  ∀ rd rn imm12 s, CompletesAlu s (exec (.addis rd rn imm12) s) .addis rd (s.x rn + imm12.setWidth 64) true

/-- R136: SUBIS, with its optional shift by 12. -/
def Obligations.SubisSubtractsShiftedImmediate : Prop :=
  (∀ split w, w.extractLsb' 21 11 ∈ [0x788#11, 0x789#11, 0x78A#11, 0x78B#11] →
    decode defaultOpcodeTable split w =
      .ok (.subis (w.extractLsb' 0 5) (w.extractLsb' 5 5) (w.extractLsb' 10 12) (w.extractLsb' 22 2))) ∧
  ∀ rd rn imm12 sh2 s, CompletesAlu s (exec (.subis rd rn imm12 sh2) s) .subis rd
    (s.x rn - (if sh2 = 0b01#2 then imm12.setWidth 64 <<< 12 else imm12.setWidth 64)) true

/-- R137: ANDS (register). -/
def Obligations.AndsWritesConjunctionAndFlags : Prop :=
  (∀ split w, w.extractLsb' 21 11 = 0x750#11 →
    decode defaultOpcodeTable split w =
      .ok (.ands (w.extractLsb' 0 5) (w.extractLsb' 5 5) (w.extractLsb' 16 5))) ∧
  ∀ rd rn rm s, CompletesAlu s (exec (.ands rd rn rm) s) .ands rd (s.x rn &&& s.x rm) true

/-- R138: EOR (register) leaves the flags. -/
def Obligations.EorWritesExclusiveOrOnly : Prop :=
  (∀ split w, w.extractLsb' 21 11 = 0x650#11 →
    decode defaultOpcodeTable split w =
      .ok (.eor (w.extractLsb' 0 5) (w.extractLsb' 5 5) (w.extractLsb' 16 5))) ∧
  ∀ rd rn rm s, CompletesAlu s (exec (.eor rd rn rm) s) .eor rd (s.x rn ^^^ s.x rm) false

/-- R139: ORR (register) leaves the flags. -/
def Obligations.OrrWritesDisjunctionOnly : Prop :=
  (∀ split w, w.extractLsb' 21 11 = 0x550#11 →
    decode defaultOpcodeTable split w =
      .ok (.orr (w.extractLsb' 0 5) (w.extractLsb' 5 5) (w.extractLsb' 16 5))) ∧
  ∀ rd rn rm s, CompletesAlu s (exec (.orr rd rn rm) s) .orr rd (s.x rn ||| s.x rm) false

/-- R140: LSL by `63 − imms`, setting the flags, under both values of `SHIFT_SPLIT`. -/
def Obligations.LslShiftsLeftAndSetsFlags : Prop :=
  (∀ w, w.extractLsb' 21 11 = 0x69B#11 →
    decode defaultOpcodeTable .byOpcode w =
      .ok (.lsl (w.extractLsb' 0 5) (w.extractLsb' 5 5) (w.extractLsb' 10 6))) ∧
  (∀ w, w.extractLsb' 21 11 ∈ [0x69A#11, 0x69B#11] → w.extractLsb' 10 6 ≠ 63#6 →
    decode defaultOpcodeTable .byImms w =
      .ok (.lsl (w.extractLsb' 0 5) (w.extractLsb' 5 5) (w.extractLsb' 10 6))) ∧
  ∀ rd rn imms s, CompletesAlu s (exec (.lsl rd rn imms) s) .lsl rd (s.x rn <<< (63 - imms.toNat)) true

/-- R141: LSR by `immr`, zero-filling, leaving the flags, under both values of `SHIFT_SPLIT`. -/
def Obligations.LsrShiftsRightLogicallyOnly : Prop :=
  (∀ w, w.extractLsb' 21 11 = 0x69A#11 →
    decode defaultOpcodeTable .byOpcode w =
      .ok (.lsr (w.extractLsb' 0 5) (w.extractLsb' 5 5) (w.extractLsb' 16 6)) ∧
    (w.extractLsb' 16 6).toNat ≤ 31) ∧
  (∀ w, w.extractLsb' 21 11 ∈ [0x69A#11, 0x69B#11] → w.extractLsb' 10 6 = 63#6 →
    decode defaultOpcodeTable .byImms w =
      .ok (.lsr (w.extractLsb' 0 5) (w.extractLsb' 5 5) (w.extractLsb' 16 6))) ∧
  ∀ rd rn immr s, CompletesAlu s (exec (.lsr rd rn immr) s) .lsr rd (s.x rn >>> immr.toNat) false

/-- R142: MOVZ writes imm16 zero-extended, whatever `hw` is. -/
def Obligations.MovzWritesImmediateIgnoringHw : Prop :=
  (∀ split w, w.extractLsb' 21 11 ∈ [0x694#11, 0x695#11, 0x696#11, 0x697#11] →
    decode defaultOpcodeTable split w =
      .ok (.movz (w.extractLsb' 0 5) (w.extractLsb' 5 16) (w.extractLsb' 21 2))) ∧
  ∀ rd imm16 hw s, CompletesAlu s (exec (.movz rd imm16 hw) s) .movz rd (imm16.setWidth 64) false

/-! ### Conditional branch (42_cond_branch.md) -/

/-- R172 to R177: under any table, a word with high byte 0x54 and one of the six codes is that branch; it goes to
`cur.PC + sext(imm19 ++ 00)` if its condition holds of the current flags, else to `cur.PC + 4`. -/
def Obligations.RecognisedConditionsBranchOnCurrentFlags : Prop :=
  (∀ table split w, w.extractLsb' 24 8 = 0x54#8 →
    (w.extractLsb' 0 4 = 0x0#4 → decode table split w = .ok (.bEq (w.extractLsb' 5 19))) ∧
    (w.extractLsb' 0 4 = 0x1#4 → decode table split w = .ok (.bNe (w.extractLsb' 5 19))) ∧
    (w.extractLsb' 0 4 = 0xA#4 → decode table split w = .ok (.bGe (w.extractLsb' 5 19))) ∧
    (w.extractLsb' 0 4 = 0xB#4 → decode table split w = .ok (.bLt (w.extractLsb' 5 19))) ∧
    (w.extractLsb' 0 4 = 0xC#4 → decode table split w = .ok (.bGt (w.extractLsb' 5 19))) ∧
    (w.extractLsb' 0 4 = 0xD#4 → decode table split w = .ok (.bLe (w.extractLsb' 5 19)))) ∧
  ∀ (imm19 : BitVec 19) (s : State),
    CompletesBranch s (exec (.bEq imm19) s) (if s.cur.z = true
      then s.cur.pc + (imm19 ++ 0b00#2).signExtend 64 else s.cur.pc + 4#64) (.decoded .bCond) ∧
    CompletesBranch s (exec (.bNe imm19) s) (if s.cur.z = false
      then s.cur.pc + (imm19 ++ 0b00#2).signExtend 64 else s.cur.pc + 4#64) (.decoded .bCond) ∧
    CompletesBranch s (exec (.bGe imm19) s) (if s.cur.n = false
      then s.cur.pc + (imm19 ++ 0b00#2).signExtend 64 else s.cur.pc + 4#64) (.decoded .bCond) ∧
    CompletesBranch s (exec (.bLt imm19) s) (if s.cur.n = true
      then s.cur.pc + (imm19 ++ 0b00#2).signExtend 64 else s.cur.pc + 4#64) (.decoded .bCond) ∧
    CompletesBranch s (exec (.bGt imm19) s) (if s.cur.z = false ∧ s.cur.n = false
      then s.cur.pc + (imm19 ++ 0b00#2).signExtend 64 else s.cur.pc + 4#64) (.decoded .bCond) ∧
    CompletesBranch s (exec (.bLe imm19) s) (if s.cur.z = true ∨ s.cur.n = true
      then s.cur.pc + (imm19 ++ 0b00#2).signExtend 64 else s.cur.pc + 4#64) (.decoded .bCond)

/-- R178: any other code is dispatched as B.cond, never branches, and is reported. -/
def Obligations.UnrecognisedConditionFallsThrough : Prop :=
  (∀ table split w, w.extractLsb' 24 8 = 0x54#8 →
    w.extractLsb' 0 4 ∈ [0x2#4, 0x3#4, 0x4#4, 0x5#4, 0x6#4, 0x7#4, 0x8#4, 0x9#4, 0xE#4, 0xF#4] →
    decode table split w = .ok (.bUnrecognised (w.extractLsb' 0 4) (w.extractLsb' 5 19))) ∧
  ∀ cond imm19 s,
    CompletesBranch s (exec (.bUnrecognised cond imm19) s) (s.cur.pc + 4#64) (.unknownCond cond)

/-- Notes after R177, with R30: after a comparison whose subtraction does not overflow, GE, LT, GT and LE are the signed
comparisons and EQ and NE are always right; `CMP` of 0 against INT64_MIN takes B.LT all the same. -/
def Obligations.SignedConditionsDecideComparisonWithoutOverflow : Prop :=
  (∀ a b : DWord, condHolds 0x0#4 (flagZero (a - b)) (flagNegative (a - b)) = decide (a = b) ∧
    condHolds 0x1#4 (flagZero (a - b)) (flagNegative (a - b)) = decide (a ≠ b)) ∧
  (∀ a b : DWord, -2 ^ 63 ≤ a.toInt - b.toInt → a.toInt - b.toInt < 2 ^ 63 →
    condHolds 0xA#4 (flagZero (a - b)) (flagNegative (a - b)) = decide (b.toInt ≤ a.toInt) ∧
    condHolds 0xB#4 (flagZero (a - b)) (flagNegative (a - b)) = decide (a.toInt < b.toInt) ∧
    condHolds 0xC#4 (flagZero (a - b)) (flagNegative (a - b)) = decide (b.toInt < a.toInt) ∧
    condHolds 0xD#4 (flagZero (a - b)) (flagNegative (a - b)) = decide (a.toInt ≤ b.toInt)) ∧
  condHolds 0xB#4 (flagZero (0#64 - BitVec.intMin 64)) (flagNegative (0#64 - BitVec.intMin 64)) = true

/-! ### Loads and stores (43_memory_access.md) -/

/-- R191: STUR stores the low 32 bits and nothing at EA + 4. -/
def Obligations.SturStoresLowWordOnly : Prop :=
  (∀ split w, w.extractLsb' 21 11 = 0x7C0#11 →
    decode defaultOpcodeTable split w =
      .ok (.stur (w.extractLsb' 0 5) (w.extractLsb' 5 5) (w.extractLsb' 12 9))) ∧
  ∀ rt rn imm9 (s : State), s.mem.wf = true →
    (admits s.cfg (effectiveAddress s rn imm9) = true →
      CompletesStore s (exec (.stur rt rn imm9) s) .stur (effectiveAddress s rn imm9) ((s.x rt).extractLsb' 0 32)
        [.write (effectiveAddress s rn imm9) ((s.x rt).extractLsb' 0 32)]) ∧
    (admits s.cfg (effectiveAddress s rn imm9) = false →
      exec (.stur rt rn imm9) s = .fault (.memFault (effectiveAddress s rn imm9)))

/-- R192: STURB replaces the low 8 bits of the word at EA. -/
def Obligations.SturbSplicesLowByte : Prop :=
  (∀ split w, w.extractLsb' 21 11 = 0x1C0#11 →
    decode defaultOpcodeTable split w =
      .ok (.sturb (w.extractLsb' 0 5) (w.extractLsb' 5 5) (w.extractLsb' 12 9))) ∧
  ∀ rt rn imm9 (s : State), s.mem.wf = true →
    (admits s.cfg (effectiveAddress s rn imm9) = true →
      CompletesStore s (exec (.sturb rt rn imm9) s) .sturb (effectiveAddress s rn imm9)
        ((s.wordAt (effectiveAddress s rn imm9)).extractLsb' 8 24 ++ (s.x rt).extractLsb' 0 8)
        [.read (effectiveAddress s rn imm9) (s.wordAt (effectiveAddress s rn imm9)),
         .write (effectiveAddress s rn imm9)
          ((s.wordAt (effectiveAddress s rn imm9)).extractLsb' 8 24 ++ (s.x rt).extractLsb' 0 8)]) ∧
    (admits s.cfg (effectiveAddress s rn imm9) = false →
      exec (.sturb rt rn imm9) s = .fault (.memFault (effectiveAddress s rn imm9)))

/-- R193: STURH replaces the low 16 bits of the word at EA. -/
def Obligations.SturhSplicesLowHalfword : Prop :=
  (∀ split w, w.extractLsb' 21 11 = 0x3C0#11 →
    decode defaultOpcodeTable split w =
      .ok (.sturh (w.extractLsb' 0 5) (w.extractLsb' 5 5) (w.extractLsb' 12 9))) ∧
  ∀ rt rn imm9 (s : State), s.mem.wf = true →
    (admits s.cfg (effectiveAddress s rn imm9) = true →
      CompletesStore s (exec (.sturh rt rn imm9) s) .sturh (effectiveAddress s rn imm9)
        ((s.wordAt (effectiveAddress s rn imm9)).extractLsb' 16 16 ++ (s.x rt).extractLsb' 0 16)
        [.read (effectiveAddress s rn imm9) (s.wordAt (effectiveAddress s rn imm9)),
         .write (effectiveAddress s rn imm9)
          ((s.wordAt (effectiveAddress s rn imm9)).extractLsb' 16 16 ++ (s.x rt).extractLsb' 0 16)]) ∧
    (admits s.cfg (effectiveAddress s rn imm9) = false →
      exec (.sturh rt rn imm9) s = .fault (.memFault (effectiveAddress s rn imm9)))

/-- R194: LDUR reads two words, the one at EA the low half; the first that is not admitted is the fault. -/
def Obligations.LdurLoadsTwoWords : Prop :=
  (∀ split w, w.extractLsb' 21 11 = 0x7C2#11 →
    decode defaultOpcodeTable split w =
      .ok (.ldur (w.extractLsb' 0 5) (w.extractLsb' 5 5) (w.extractLsb' 12 9))) ∧
  ∀ rt rn imm9 (s : State),
    (admits s.cfg (effectiveAddress s rn imm9) = true →
      admits s.cfg (effectiveAddress s rn imm9 + 4#64) = true →
      CompletesLoad s (exec (.ldur rt rn imm9) s) .ldur rt
        (s.wordAt (effectiveAddress s rn imm9 + 4#64) ++ s.wordAt (effectiveAddress s rn imm9))
        [.read (effectiveAddress s rn imm9) (s.wordAt (effectiveAddress s rn imm9)),
         .read (effectiveAddress s rn imm9 + 4#64) (s.wordAt (effectiveAddress s rn imm9 + 4#64))]) ∧
    (admits s.cfg (effectiveAddress s rn imm9) = false →
      exec (.ldur rt rn imm9) s = .fault (.memFault (effectiveAddress s rn imm9))) ∧
    (admits s.cfg (effectiveAddress s rn imm9) = true →
      admits s.cfg (effectiveAddress s rn imm9 + 4#64) = false →
      exec (.ldur rt rn imm9) s = .fault (.memFault (effectiveAddress s rn imm9 + 4#64)))

/-- R195: LDURB widens the low byte of the word at EA by `NARROW_LOAD_EXT`, by default with its sign. -/
def Obligations.LdurbLoadsWidenedByte : Prop :=
  (∀ split w, w.extractLsb' 21 11 = 0x1C2#11 →
    decode defaultOpcodeTable split w =
      .ok (.ldurb (w.extractLsb' 0 5) (w.extractLsb' 5 5) (w.extractLsb' 12 9))) ∧
  (∀ rt rn imm9 (s : State),
    (admits s.cfg (effectiveAddress s rn imm9) = true →
      CompletesLoad s (exec (.ldurb rt rn imm9) s) .ldurb rt
        (widen8 s.cfg.narrowLoadExt ((s.wordAt (effectiveAddress s rn imm9)).extractLsb' 0 8))
        [.read (effectiveAddress s rn imm9) (s.wordAt (effectiveAddress s rn imm9))]) ∧
    (admits s.cfg (effectiveAddress s rn imm9) = false →
      exec (.ldurb rt rn imm9) s = .fault (.memFault (effectiveAddress s rn imm9)))) ∧
  defaultConfig.narrowLoadExt = .sext64 ∧ ∀ b : BitVec 8, widen8 .sext64 b = b.signExtend 64

/-- R196: LDURH widens the low halfword of the word at EA by `NARROW_LOAD_EXT`, by default with its sign. -/
def Obligations.LdurhLoadsWidenedHalfword : Prop :=
  (∀ split w, w.extractLsb' 21 11 = 0x3C2#11 →
    decode defaultOpcodeTable split w =
      .ok (.ldurh (w.extractLsb' 0 5) (w.extractLsb' 5 5) (w.extractLsb' 12 9))) ∧
  (∀ rt rn imm9 (s : State),
    (admits s.cfg (effectiveAddress s rn imm9) = true →
      CompletesLoad s (exec (.ldurh rt rn imm9) s) .ldurh rt
        (widen16 s.cfg.narrowLoadExt ((s.wordAt (effectiveAddress s rn imm9)).extractLsb' 0 16))
        [.read (effectiveAddress s rn imm9) (s.wordAt (effectiveAddress s rn imm9))]) ∧
    (admits s.cfg (effectiveAddress s rn imm9) = false →
      exec (.ldurh rt rn imm9) s = .fault (.memFault (effectiveAddress s rn imm9)))) ∧
  defaultConfig.narrowLoadExt = .sext64 ∧ ∀ h : BitVec 16, widen16 .sext64 h = h.signExtend 64

/-- The three readings of `NARROW_LOAD_EXT` (R197, decision D9), as numbers; and the spec's own inference there that a
signed 32-bit intermediate widened as signed gives the same value as `sext64`. -/
def Obligations.NarrowWideningReadings : Prop :=
  (∀ b : BitVec 8, (widen8 .sext64 b).toInt = b.toInt ∧
    (widen8 .sext32Zext64 b).toNat = (b.toInt % 2 ^ 32).toNat ∧ (widen8 .zext64 b).toNat = b.toNat ∧
    widen8 .sext64 b = (b.signExtend 32).signExtend 64) ∧
  ∀ h : BitVec 16, (widen16 .sext64 h).toInt = h.toInt ∧
    (widen16 .sext32Zext64 h).toNat = (h.toInt % 2 ^ 32).toNat ∧ (widen16 .zext64 h).toNat = h.toNat ∧
    widen16 .sext64 h = (h.signExtend 32).signExtend 64

/-- R98, R99, R100: the three offsets, of the fields of any word, as signed numbers, with their ranges. -/
def Obligations.OffsetsAreSignedAndInRange : Prop :=
  (∀ w : Word, (memOffset (fieldImm9 w)).toInt = (w.extractLsb' 12 9).toInt ∧
    -256 ≤ (memOffset (fieldImm9 w)).toInt ∧ (memOffset (fieldImm9 w)).toInt ≤ 255) ∧
  (∀ w : Word, (condOffset (fieldImm19 w)).toInt = 4 * (w.extractLsb' 5 19).toInt ∧
    -2 ^ 20 ≤ (condOffset (fieldImm19 w)).toInt ∧ (condOffset (fieldImm19 w)).toInt ≤ 2 ^ 20 - 4) ∧
  ∀ w : Word, (branchOffset (fieldImm26 w)).toInt = 4 * (w.extractLsb' 0 26).toInt ∧
    -2 ^ 27 ≤ (branchOffset (fieldImm26 w)).toInt ∧ (branchOffset (fieldImm26 w)).toInt ≤ 2 ^ 27 - 4

/-- From R190: the effective address is the base plus the signed offset, modulo 2^64; base 31 is 0. -/
def Obligations.EffectiveAddressIsBasePlusOffset : Prop :=
  (∀ (s : State) rn imm9,
    ((effectiveAddress s rn imm9).toNat : Int) = ((s.x rn).toNat + imm9.toInt) % 2 ^ 64) ∧
  ∀ (s : State) (imm9 : BitVec 9), ((effectiveAddress s xzr imm9).toNat : Int) = imm9.toInt % 2 ^ 64

/-! ### Unconditional branches, halt, unknown (44_branch_sequencing.md) -/

/-- R220: B. -/
def Obligations.BranchGoesToSignedOffset : Prop :=
  (∀ split w, w.extractLsb' 26 6 = 0b000101#6 →
    decode defaultOpcodeTable split w = .ok (.b (w.extractLsb' 0 26))) ∧
  ∀ (imm26 : BitVec 26) s,
    CompletesBranch s (exec (.b imm26) s) (s.cur.pc + (imm26 ++ 0b00#2).signExtend 64) (.decoded (.table .b))

/-- R221: BR goes to the register's value verbatim. -/
def Obligations.BranchRegisterGoesToRegisterVerbatim : Prop :=
  (∀ split w, w.extractLsb' 21 11 = 0x6B0#11 →
    decode defaultOpcodeTable split w = .ok (.br (w.extractLsb' 5 5))) ∧
  ∀ rn s, CompletesBranch s (exec (.br rn) s) (s.x rn) (.decoded (.table .br))

/-- R222: HLT clears `running` and is sequenced like any other instruction. -/
def Obligations.HltClearsRunningAndAdvances : Prop :=
  (∀ split w, w.extractLsb' 21 11 = 0x6A2#11 → decode defaultOpcodeTable split w = .ok .hlt) ∧
  ∀ s, ∃ t, exec .hlt s = .next t ∧ t.running = false ∧ t.out.runClr = true ∧
    t.nxt.pc = s.cur.pc + 4#64 ∧ KeepsRegs s t ∧ KeepsFlags s t ∧ KeepsMemory s t ∧ KeepsCurrent s t ∧
    Reports s t [] (.decoded (.table .hlt))

/-- R224: a word with `hb ≠ 0x54` and `op11` not in the table advances the PC, is reported, and changes nothing else; and
the words R224 names are such words under the default table. -/
def Obligations.UnknownWordOnlyAdvancesAndReports : Prop :=
  (∀ split, ∀ w ∈ [0x00000000#32, 0xFFFFFFFF#32, 0xD503201F#32, 0x91000421#32, 0xAB220023#32, 0xB1400423#32, 0xD65F03C0#32],
    decode defaultOpcodeTable split w = .error (.unknownOpcode w)) ∧
  ∀ s : State, admits s.cfg s.cur.pc = true →
    (fetchedWord s).extractLsb' 24 8 ≠ 0x54#8 →
    s.cfg.opcodeTable.find ((fetchedWord s).extractLsb' 21 11) = none →
    ∃ t, cycle s = .next t ∧ t.nxt = { s.cur with pc := s.cur.pc + 4#64 } ∧ t.cur = s.cur ∧
      t.mem = s.mem ∧ t.running = s.running ∧ t.cfg = s.cfg ∧
      t.out = { bus := [.read s.cur.pc (fetchedWord s)], runClr := false, diag := [.unknownOpcode (fetchedWord s)] }

/-! ### What instructions may read and write (10_state.md) -/

/-- R21: index 31 reads 0 whatever is stored, in every operand position of every instruction; a write of it is discarded;
any other write is seen by reads of that register alone; an instruction whose destination is 31 writes no register, and a
flag setter among them still writes both flags, from the result it computes. -/
def Obligations.ZeroRegisterReadsZeroAndDiscardsWrites : Prop :=
  (∀ (p : Proc) (v : DWord), ({ p with regs := p.regs.set 31 v } : Proc).x 31#5 = 0#64) ∧
  (∀ (p : Proc) (i j : RegIndex) (v : DWord),
    (p.setX i v).x j = if j = i ∧ j ≠ 31#5 then v else p.x j) ∧
  (∀ (p : Proc) (v : DWord), p.setX 31#5 v = p) ∧
  (∀ i s t, exec i s = .next t → destination i = some 31#5 →
    t.nxt.regs = s.nxt.regs ∧ (setsFlags i = true → ∃ r, flagResult i s = some r ∧ SetsFlagsFrom t r)) ∧
  ∀ (i : Instr) (s : State) (v : DWord),
    (∀ t, exec i s = .next t →
      exec i { s with cur := { s.cur with regs := s.cur.regs.set 31 v } } =
        .next { t with cur := { t.cur with regs := t.cur.regs.set 31 v } }) ∧
    ∀ f, exec i s = .fault f → exec i { s with cur := { s.cur with regs := s.cur.regs.set 31 v } } = .fault f

/-- From R23: an instruction writes at most one register, the one its bits [4:0] name; the unknown instruction writes
none. -/
def Obligations.InstructionWritesAtMostItsDestination : Prop :=
  (∀ i s t, exec i s = .next t → ∀ r, destination i ≠ some r → t.nxt.x r = s.nxt.x r) ∧
  (∀ w s t, execUnknown w s = .next t → KeepsRegs s t) ∧
  ∀ table split w i r, decode table split w = .ok i → destination i = some r → r = w.extractLsb' 0 5

/-- R27, R28: only the six flag setters write the flags, and they write both from the result they compute; only B.cond
reads them: any other instruction does the same whatever the current flags are. -/
def Obligations.FlagsWrittenBySixReadByConditionalBranch : Prop :=
  (∀ i s t, exec i s = .next t →
    (setsFlags i = false → KeepsFlags s t) ∧
    (setsFlags i = true → ∃ r, flagResult i s = some r ∧ SetsFlagsFrom t r)) ∧
  (∀ w s t, execUnknown w s = .next t → KeepsFlags s t) ∧
  ∀ (i : Instr) (s : State) (z n : Bool), readsFlags i = false →
    (∀ t, exec i s = .next t →
      exec i { s with cur := { s.cur with z := z, n := n } } =
        .next { t with cur := { t.cur with z := z, n := n } }) ∧
    ∀ f, exec i s = .fault f → exec i { s with cur := { s.cur with z := z, n := n } } = .fault f

/-- From R33 and R274: an instruction leaves `cur`, and what it writes does not depend on `nxt`. -/
def Obligations.ReadsSeeOnlyTheCurrentRecord : Prop :=
  ∀ (i : Instr) (s : State) (p : Proc),
    (∀ t, exec i s = .next t → t.cur = s.cur ∧
      ∃ u, exec i { s with nxt := p } = .next u ∧ u.mem = t.mem ∧ u.running = t.running ∧ u.out = t.out ∧
        u.nxt.pc = t.nxt.pc ∧ (∀ r, destination i = some r → u.nxt.x r = t.nxt.x r) ∧
        (setsFlags i = true → u.nxt.z = t.nxt.z ∧ u.nxt.n = t.nxt.n)) ∧
    ∀ f, exec i s = .fault f → exec i { s with nxt := p } = .fault f

/-- From R32: HLT is the only instruction that writes `running`, and no step sets it to true. -/
def Obligations.OnlyHltWritesRunning : Prop :=
  (∀ i s t, exec i s = .next t → (i ≠ .hlt → t.running = s.running) ∧ (i = .hlt → t.running = false)) ∧
  (∀ w s t, execUnknown w s = .next t → t.running = s.running) ∧
  ∀ s t, step s = .next t → t.running = true → s.running = true

/-- R223: an instruction that does not own the PC advances it by 4, and exactly B, BR and B.cond own it. -/
def Obligations.OnlyBranchesOwnThePc : Prop :=
  (∀ i s t, exec i s = .next t → ownsPc i = false → t.nxt.pc = s.cur.pc + 4#64) ∧
  (∀ w s t, execUnknown w s = .next t → t.nxt.pc = s.cur.pc + 4#64) ∧
  ∀ i, ownsPc i = true ↔ ((∃ imm26, i = .b imm26) ∨ (∃ rn, i = .br rn) ∨
    (∃ imm19, i = .bEq imm19 ∨ i = .bNe imm19 ∨ i = .bGe imm19 ∨ i = .bLt imm19 ∨ i = .bGt imm19 ∨ i = .bLe imm19) ∨
    ∃ cond imm19, i = .bUnrecognised cond imm19)

/-- From R26: a step from a PC that is a multiple of 4 leaves one, unless the instruction is BR. -/
def Obligations.OnlyBrMisalignsThePc : Prop :=
  ∀ s t, step s = .next t → s.cur.pc.toNat % 4 = 0 → (∀ rn, fetchedInstr s ≠ some (.br rn)) →
    t.cur.pc.toNat % 4 = 0

/-- From R58 and R198: memory changes only in the one word a store names, and not at all for any other instruction. -/
def Obligations.MemoryChangesOnlyAtTheStoredWord : Prop :=
  ∀ i (s t : State), s.mem.wf = true → exec i s = .next t →
    (storeAddress i s = none → KeepsMemory s t) ∧
    ∀ a, storeAddress i s = some a →
      ∀ b : Addr, b ≠ a → b ≠ a + 1#64 → b ≠ a + 2#64 → b ≠ a + 3#64 → t.byteAt b = s.byteAt b

/-! ### Memory (20_memory.md) -/

/-- R53: `MemRead(a, 4)` under both policies and both byte orders. -/
def Obligations.MemReadAssemblesAdmittedWord : Prop :=
  ∀ (s : State) (a : Addr) (rest : Word → State → Result),
    (Admissible s.cfg a → s.cfg.endian = .little →
      s.withRead a rest =
        rest (s.byteAt (a + 3#64) ++ s.byteAt (a + 2#64) ++ s.byteAt (a + 1#64) ++ s.byteAt a)
          (s.logAccess (.read a
            (s.byteAt (a + 3#64) ++ s.byteAt (a + 2#64) ++ s.byteAt (a + 1#64) ++ s.byteAt a)))) ∧
    (Admissible s.cfg a → s.cfg.endian = .big →
      s.withRead a rest =
        rest (s.byteAt a ++ s.byteAt (a + 1#64) ++ s.byteAt (a + 2#64) ++ s.byteAt (a + 3#64))
          (s.logAccess (.read a
            (s.byteAt a ++ s.byteAt (a + 1#64) ++ s.byteAt (a + 2#64) ++ s.byteAt (a + 3#64))))) ∧
    (¬Admissible s.cfg a → s.withRead a rest = .fault (.memFault a))

/-- R54: `MemWrite(a, 4, v)` stores the four bytes in the session's byte order and changes no other byte; not admitted, it
writes nothing. -/
def Obligations.MemWriteStoresFourBytes : Prop :=
  ∀ (s : State) (a : Addr) (v : Word) (rest : State → Result), s.mem.wf = true →
    (Admissible s.cfg a → ∃ t : State, s.withWrite a v rest = rest t ∧
      t.byteAt a = (if s.cfg.endian = .little then v.extractLsb' 0 8 else v.extractLsb' 24 8) ∧
      t.byteAt (a + 1#64) = (if s.cfg.endian = .little then v.extractLsb' 8 8 else v.extractLsb' 16 8) ∧
      t.byteAt (a + 2#64) = (if s.cfg.endian = .little then v.extractLsb' 16 8 else v.extractLsb' 8 8) ∧
      t.byteAt (a + 3#64) = (if s.cfg.endian = .little then v.extractLsb' 24 8 else v.extractLsb' 0 8) ∧
      (∀ b : Addr, b ≠ a → b ≠ a + 1#64 → b ≠ a + 2#64 → b ≠ a + 3#64 → t.byteAt b = s.byteAt b) ∧
      t.cur = s.cur ∧ t.nxt = s.nxt ∧ t.running = s.running ∧ t.cfg = s.cfg ∧ t.mem.wf = true ∧
      t.out = { s.out with bus := s.out.bus ++ [.write a v] }) ∧
    (¬Admissible s.cfg a → s.withWrite a v rest = .fault (.memFault a))

/-- The claim of R57 (an inference of the spec) that under `ALIGN_POLICY = fault` no program can observe `ENDIAN`: two sessions that differ only in it, and hold the
same aligned words, take the same steps, report the same outputs and meet the same faults. -/
def Obligations.EndianUnobservableWhenAligned : Prop :=
  ∀ s s' : State, SameUpToEndian s s' →
    (∀ t, step s = .next t → ∃ t', step s' = .next t' ∧ SameUpToEndian t t') ∧
    (∀ f, step s = .fault f → step s' = .fault f) ∧
    ∀ q, step s = .refused q → step s' = .refused q

/-- From R66 (an inference of the spec): the cycle after a STUR to its own next PC fetches the stored word. -/
def Obligations.StoreIsSeenByTheNextFetch : Prop :=
  ∀ (s t : State) rt rn imm9, s.mem.wf = true → step s = .next t →
    fetchedInstr s = some (.stur rt rn imm9) → effectiveAddress s rn imm9 = s.cur.pc + 4#64 →
    t.cur.pc = s.cur.pc + 4#64 ∧ fetchedWord t = (s.x rt).extractLsb' 0 32

/-! ### The cycle and the run (40_cycle.md, 60_exceptions.md) -/

/-- From R111 and R116: where the session is live and the fetch is admitted, a step executes the fetched word's instruction on
`nxt = cur` with the fetch logged, and commits. -/
def Obligations.StepRunsTheDecodedInstruction : Prop :=
  ∀ (s : State) (i : Instr), s.live = true → admits s.cfg s.cur.pc = true →
    decode s.cfg.opcodeTable s.cfg.shiftSplit (s.wordAt s.cur.pc) = .ok i →
    step s = commitDone (exec i { s with
      nxt := s.cur
      out := { bus := [.read s.cur.pc (s.wordAt s.cur.pc)], runClr := false, diag := [] } })

/-- R58: a completed cycle's accesses are the fetch and then the instruction's own, in the order R58 gives; all but
the last are reads, and there are at most three. -/
def Obligations.CycleAccessesInOrder : Prop :=
  ∀ s t, step s = .next t →
    t.out.bus = cycleAccesses s ∧ (cycleAccesses s).length ≤ 3 ∧
    ∀ b ∈ (cycleAccesses s).dropLast, b.isRead = true

/-- From R115: a completed cycle emits exactly one event: `UnknownOpcode` for an unknown word, `UnknownCond` for an
unrecognised condition, `Decoded` otherwise. -/
def Obligations.EveryCompletedCycleEmitsOneEvent : Prop :=
  ∀ s t, step s = .next t →
    (fetchedInstr s = none → t.out.diag = [.unknownOpcode (fetchedWord s)]) ∧
    (∀ cond imm19, fetchedInstr s = some (.bUnrecognised cond imm19) → t.out.diag = [.unknownCond cond]) ∧
    (∀ i, fetchedInstr s = some i → (∀ cond imm19, i ≠ .bUnrecognised cond imm19) →
      t.out.diag = [eventOf i] ∧ ∃ id, eventOf i = .decoded id)

/-- From R63, R110, R241 and R244 (decision D10 of the spec; log 10): a live session's step completes, or faults at the first access of the cycle, the fetch first,
that is not admitted; there is no third outcome. -/
def Obligations.StepFaultsAtFirstInadmissibleAccess : Prop :=
  ∀ s : State, s.live = true →
    (FaultFree s ↔ ∀ b ∈ cycleAccesses s, admits s.cfg b.addr = true) ∧
    (FaultFree s → ∃ t, step s = .next t) ∧
    ∀ a, step s = .fault (.memFault a) ↔
      ∃ b, (cycleAccesses s).find? (fun b => !admits s.cfg b.addr) = some b ∧ b.addr = a

/-- From R241 and R243 (inferences of the spec): every instruction completes in every state unless one of its own data accesses is not admitted; none
is ever refused. -/
def Obligations.InstructionsOnlyStopAtInadmissibleAccess : Prop :=
  ∀ i s, ((∀ b ∈ dataAccesses i s, admits s.cfg b.addr = true) ↔ ∃ t, exec i s = .next t) ∧
    (∀ q, exec i s ≠ .refused q) ∧
    ∀ a, exec i s = .fault (.memFault a) → ∃ b ∈ dataAccesses i s, b.addr = a ∧ admits s.cfg a = false

/-- From R117, I13 and I19: no step is taken once `running` is false, nor under an `OPCODE_TABLE` that is no function. That the
model answers a refusal here is its own choice (log 11, log 14). -/
def Obligations.EndedRunTakesNoStep : Prop :=
  ∀ s : State, (s.cfg.opcodeTable.isMap = false → step s = .refused .opcodeTableNotMap) ∧
    (s.cfg.opcodeTable.isMap = true → s.running = false → step s = .refused .runEnded)

/-- From R117 and R253: after the commit of a cycle that executed HLT the run is over: nothing wakes the core. That the model
answers a refusal here is its own choice (log 11). -/
def Obligations.HltEndsTheRun : Prop :=
  ∀ s t, step s = .next t → fetchedInstr s = some .hlt →
    t.running = false ∧ t.cur.pc = s.cur.pc + 4#64 ∧
    ∀ k, Sys2Proof.core.run (k + 1) t = .refused .runEnded

/-! ### Reset and the invariant (10_state.md, 70_reset_and_hazards.md) -/

/-- R37 to R39, and what R40 says of `running` and `nxt`: the state at session start, for every configuration, `ENTRY_PC` and `INITIAL_MEMORY`. -/
def Obligations.BootStateIsZeroButEntryPc : Prop :=
  ∀ (cfg : Config) (entryPc : Addr) (image : Memory),
    (∀ i, (State.boot cfg entryPc image).x i = 0#64) ∧
    (State.boot cfg entryPc image).cur.z = false ∧ (State.boot cfg entryPc image).cur.n = false ∧
    (State.boot cfg entryPc image).cur.pc = entryPc ∧
    (State.boot cfg entryPc image).running = true ∧
    (State.boot cfg entryPc image).nxt = (State.boot cfg entryPc image).cur ∧
    (State.boot cfg entryPc image).mem = image

/-- The invariant holds at reset. It rests on the model's own choice of window, entry point and empty image (log 4, 5, 6)
only in that these exist. -/
def Obligations.ResetSatisfiesInvariant : Prop := State.reset.Inv

/-- From R21, R34, R52, R116 and R10: from every state that satisfies the invariant, a step leads to one that does, and the
parameters stay as they are. -/
def Obligations.StepKeepsInvariant : Prop :=
  ∀ s t : State, s.Inv → step s = .next t → t.Inv ∧ t.cfg = s.cfg

/-! ### Encoding (30_encoding.md) -/

/-- Decoding the encoding of any well-formed instruction gives it back, with every operand, under both values of
`SHIFT_SPLIT`. -/
def Obligations.DecodeOfEncodeIsIdentity : Prop :=
  ∀ (split : ShiftSplit) (i : Instr), i.wellFormed split = true →
    decode defaultOpcodeTable split (encode i) = .ok i

/-- What the decoder answers is well-formed, and encodes back to the same word but for the bits R83 lists as ignored. -/
def Obligations.EncodeOfDecodeAgreesOffIgnoredBits : Prop :=
  ∀ (split : ShiftSplit) (w : Word) (i : Instr), decode defaultOpcodeTable split w = .ok i →
    i.wellFormed split = true ∧
    encode i &&& ~~~(ignoredBits split i) = w &&& ~~~(ignoredBits split i)

/-- From R83, for the bits that `SHIFT_SPLIT` does not read: changing ignored bits in any way leaves the decoded instruction the same. -/
def Obligations.IgnoredBitsDoNotChangeTheInstruction : Prop :=
  ∀ (split : ShiftSplit) (w m : Word) (i : Instr), decode defaultOpcodeTable split w = .ok i →
    decode defaultOpcodeTable split (w ^^^ (m &&& ignoredBits split i)) = .ok i

/-- From R82 and R86. The spec does not say which of the two decides for 0x69A and 0x69B under a table that moves the
shifts: that the table does under `by_opcode`, and the two numbers under `by_imms`, is the model's choice (log 3).
`hb = 0x54` is B.cond whatever the table holds; otherwise the table decides by `op11`, with `imms` telling the two shifts
apart under `by_imms`; otherwise the word is unknown. -/
def Obligations.DispatchIsHighByteThenOpcode : Prop :=
  ∀ (table : OpcodeTable) (split : ShiftSplit) (w : Word),
    (w.extractLsb' 24 8 = 0x54#8 → decode table split w = decode [] split w ∧
      ∃ i, decode table split w = .ok i ∧ (eventOf i = .decoded .bCond ∨ eventOf i = .unknownCond (w.extractLsb' 0 4))) ∧
    (w.extractLsb' 24 8 ≠ 0x54#8 → table.find (w.extractLsb' 21 11) = none →
      decode table split w = .error (.unknownOpcode w)) ∧
    ∀ t, w.extractLsb' 24 8 ≠ 0x54#8 → table.find (w.extractLsb' 21 11) = some t →
      (split = .byOpcode ∨ w.extractLsb' 21 11 ∉ [0x69A#11, 0x69B#11] →
        ∃ i, decode table split w = .ok i ∧ eventOf i = .decoded (.table t)) ∧
      (split = .byImms → w.extractLsb' 21 11 ∈ [0x69A#11, 0x69B#11] →
        ∃ i, decode table split w = .ok i ∧
          eventOf i = .decoded (.table (if w.extractLsb' 10 6 = 63#6 then .lsr else .lsl)))

/-- From R95, whose values the spec marks as taken from general knowledge (log 2): the default table is exactly the masks
and matches of R95's rows, and is a function. -/
def Obligations.DefaultTableMatchesItsRows : Prop :=
  defaultOpcodeTable.isMap = true ∧
  (∀ w : Word, defaultOpcodeTable.find (w.extractLsb' 21 11) =
    (r95Rows.find? fun r => w &&& r.1 == r.2.1).map fun r => r.2.2) ∧
  ∀ w : Word, (w &&& 0xFF000000#32 = 0x54000000#32 ↔ w.extractLsb' 24 8 = 0x54#8)

/-- A few words written out from R84 to R91 decode to the instructions they stand for. -/
def Obligations.WrittenOutWordsDecode : Prop :=
  decodeTableWord 32 0xAB020023 = some (.adds 3 1 2) ∧
  decodeTableWord 32 0xF17FFC23 = some (.subis 3 1 0xFFF 1) ∧
  decodeTableWord 32 0xD37CEC23 = some (.lsl 3 1 59) ∧
  decodeTableWord 32 0xF81F8022 = some (.stur 2 1 0x1F8) ∧
  decodeTableWord 32 0x5400008D = some (.bLe 4) ∧
  decodeTableWord 32 0x17FFFFFF = some (.b 0x3FFFFFF) ∧
  decodeTableWord 32 0xD61F00A0 = some (.br 5) ∧
  decodeTableWord 32 0xB1400423 = none

/-- From R104 (general knowledge, as the spec marks it), R140 and R141: which assembled `LSL #n` and `LSR #n` execute as written. Under `by_opcode`, LSL for n from 1 to 32
and LSR for n from 0 to 31, and the others as the other shift; under `by_imms`, all of both but `LSL #0`. -/
def Obligations.AssembledShiftsExecuteAsWritten : Prop :=
  ∀ (rd rn : RegIndex) (n : Nat),
    (1 ≤ n → n ≤ 32 → ∃ imms, lslAmount imms = n ∧
      decode defaultOpcodeTable .byOpcode (assembledLsl rd rn n) = .ok (.lsl rd rn imms)) ∧
    (33 ≤ n → n ≤ 63 → ∃ immr, lsrAmount immr = 64 - n ∧
      decode defaultOpcodeTable .byOpcode (assembledLsl rd rn n) = .ok (.lsr rd rn immr)) ∧
    (n ≤ 31 → ∃ immr, lsrAmount immr = n ∧
      decode defaultOpcodeTable .byOpcode (assembledLsr rd rn n) = .ok (.lsr rd rn immr)) ∧
    (32 ≤ n → n ≤ 63 → ∃ imms, lslAmount imms = 0 ∧
      decode defaultOpcodeTable .byOpcode (assembledLsr rd rn n) = .ok (.lsl rd rn imms)) ∧
    (1 ≤ n → n ≤ 63 → ∃ imms, lslAmount imms = n ∧
      decode defaultOpcodeTable .byImms (assembledLsl rd rn n) = .ok (.lsl rd rn imms)) ∧
    (n ≤ 63 → ∃ immr, lsrAmount immr = n ∧
      decode defaultOpcodeTable .byImms (assembledLsr rd rn n) = .ok (.lsr rd rn immr))

/-- From R105 (an inference of the spec): what the pseudo-instructions do: the four compares set the flags and write no register, NEGS negates, MOV copies
or loads a constant. -/
def Obligations.PseudoInstructionEffects : Prop :=
  (∀ rn rm s, ∃ t, exec (cmpReg rn rm) s = .next t ∧ KeepsRegs s t ∧ SetsFlagsFrom t (s.x rn - s.x rm)) ∧
  (∀ rn imm12 s, ∃ t, exec (cmpImm rn imm12 0#2) s = .next t ∧ KeepsRegs s t ∧
    SetsFlagsFrom t (s.x rn - imm12.setWidth 64)) ∧
  (∀ rn rm s, ∃ t, exec (cmnReg rn rm) s = .next t ∧ KeepsRegs s t ∧ SetsFlagsFrom t (s.x rn + s.x rm)) ∧
  (∀ rn imm12 s, ∃ t, exec (cmnImm rn imm12) s = .next t ∧ KeepsRegs s t ∧
    SetsFlagsFrom t (s.x rn + imm12.setWidth 64)) ∧
  (∀ rn rm s, ∃ t, exec (tstReg rn rm) s = .next t ∧ KeepsRegs s t ∧ SetsFlagsFrom t (s.x rn &&& s.x rm)) ∧
  (∀ rd rm s, ∃ t, exec (negsReg rd rm) s = .next t ∧ WritesReg s t rd (-s.x rm) ∧ SetsFlagsFrom t (-s.x rm)) ∧
  (∀ rd rm s, ∃ t, exec (movReg rd rm) s = .next t ∧ WritesReg s t rd (s.x rm) ∧ KeepsFlags s t) ∧
  ∀ rd imm16 s, ∃ t, exec (movImm rd imm16) s = .next t ∧ WritesReg s t rd (imm16.setWidth 64) ∧ KeepsFlags s t
end

