-- ==== Sys2Proof/Laws/Decode.lean ====
section
/-! SUPPORT. The decoder and the encoder: a field of an encoded word is the operand put there; what the default table
finds; how a word whose primary opcode is known decodes. -/

namespace Sys2Proof

/-! ### Fields of encoded words (R84 to R91) -/

@[simp] theorem fieldOp11_encodeR (op : BitVec 11) (rd rn rm : RegIndex) : fieldOp11 (encodeR op rd rn rm) = op := by
  unfold fieldOp11 encodeR
  rw [BitVec.extractLsb'_append_eq_of_le (by decide),
    BitVec.extractLsb'_append_eq_of_le (by decide),
    BitVec.extractLsb'_append_eq_of_le (by decide),
    BitVec.extractLsb'_append_eq_of_le (by decide)]
  exact BitVec.extractLsb'_eq_self

@[simp] theorem fieldRd_encodeR (op : BitVec 11) (rd rn rm : RegIndex) : fieldRd (encodeR op rd rn rm) = rd := by
  unfold fieldRd encodeR
  rw [BitVec.extractLsb'_append_eq_of_add_le (by decide)]
  exact BitVec.extractLsb'_eq_self

@[simp] theorem fieldRn_encodeR (op : BitVec 11) (rd rn rm : RegIndex) : fieldRn (encodeR op rd rn rm) = rn := by
  unfold fieldRn encodeR
  rw [BitVec.extractLsb'_append_eq_of_le (by decide),
    BitVec.extractLsb'_append_eq_of_add_le (by decide)]
  exact BitVec.extractLsb'_eq_self

@[simp] theorem fieldRm_encodeR (op : BitVec 11) (rd rn rm : RegIndex) : fieldRm (encodeR op rd rn rm) = rm := by
  unfold fieldRm encodeR
  rw [BitVec.extractLsb'_append_eq_of_le (by decide),
    BitVec.extractLsb'_append_eq_of_le (by decide),
    BitVec.extractLsb'_append_eq_of_le (by decide),
    BitVec.extractLsb'_append_eq_of_add_le (by decide)]
  exact BitVec.extractLsb'_eq_self

@[simp] theorem fieldOp11_encodeD (op : BitVec 11) (rt rn : RegIndex) (imm9 : BitVec 9) : fieldOp11 (encodeD op rt rn imm9) = op := by
  unfold fieldOp11 encodeD
  rw [BitVec.extractLsb'_append_eq_of_le (by decide),
    BitVec.extractLsb'_append_eq_of_le (by decide),
    BitVec.extractLsb'_append_eq_of_le (by decide),
    BitVec.extractLsb'_append_eq_of_le (by decide)]
  exact BitVec.extractLsb'_eq_self

@[simp] theorem fieldRd_encodeD (op : BitVec 11) (rt rn : RegIndex) (imm9 : BitVec 9) : fieldRd (encodeD op rt rn imm9) = rt := by
  unfold fieldRd encodeD
  rw [BitVec.extractLsb'_append_eq_of_add_le (by decide)]
  exact BitVec.extractLsb'_eq_self

@[simp] theorem fieldRn_encodeD (op : BitVec 11) (rt rn : RegIndex) (imm9 : BitVec 9) : fieldRn (encodeD op rt rn imm9) = rn := by
  unfold fieldRn encodeD
  rw [BitVec.extractLsb'_append_eq_of_le (by decide),
    BitVec.extractLsb'_append_eq_of_add_le (by decide)]
  exact BitVec.extractLsb'_eq_self

@[simp] theorem fieldImm9_encodeD (op : BitVec 11) (rt rn : RegIndex) (imm9 : BitVec 9) : fieldImm9 (encodeD op rt rn imm9) = imm9 := by
  unfold fieldImm9 encodeD
  rw [BitVec.extractLsb'_append_eq_of_le (by decide),
    BitVec.extractLsb'_append_eq_of_le (by decide),
    BitVec.extractLsb'_append_eq_of_le (by decide),
    BitVec.extractLsb'_append_eq_of_add_le (by decide)]
  exact BitVec.extractLsb'_eq_self

@[simp] theorem fieldHb_encodeCB (cond : BitVec 4) (imm19 : BitVec 19) : fieldHb (encodeCB cond imm19) = 0x54#8 := by
  unfold fieldHb encodeCB
  rw [BitVec.extractLsb'_append_eq_of_le (by decide),
    BitVec.extractLsb'_append_eq_of_le (by decide),
    BitVec.extractLsb'_append_eq_of_le (by decide)]
  exact BitVec.extractLsb'_eq_self

@[simp] theorem fieldCond_encodeCB (cond : BitVec 4) (imm19 : BitVec 19) : fieldCond (encodeCB cond imm19) = cond := by
  unfold fieldCond encodeCB
  rw [BitVec.extractLsb'_append_eq_of_add_le (by decide)]
  exact BitVec.extractLsb'_eq_self

@[simp] theorem fieldImm19_encodeCB (cond : BitVec 4) (imm19 : BitVec 19) : fieldImm19 (encodeCB cond imm19) = imm19 := by
  unfold fieldImm19 encodeCB
  rw [BitVec.extractLsb'_append_eq_of_le (by decide),
    BitVec.extractLsb'_append_eq_of_le (by decide),
    BitVec.extractLsb'_append_eq_of_add_le (by decide)]
  exact BitVec.extractLsb'_eq_self

@[simp] theorem fieldRd_encode_addis (rd rn : RegIndex) (imm12 : BitVec 12) : fieldRd (encode (.addis rd rn imm12)) = rd := by
  unfold fieldRd encode
  rw [BitVec.extractLsb'_append_eq_of_add_le (by decide)]
  exact BitVec.extractLsb'_eq_self

@[simp] theorem fieldRn_encode_addis (rd rn : RegIndex) (imm12 : BitVec 12) : fieldRn (encode (.addis rd rn imm12)) = rn := by
  unfold fieldRn encode
  rw [BitVec.extractLsb'_append_eq_of_le (by decide),
    BitVec.extractLsb'_append_eq_of_add_le (by decide)]
  exact BitVec.extractLsb'_eq_self

@[simp] theorem fieldImm12_encode_addis (rd rn : RegIndex) (imm12 : BitVec 12) : fieldImm12 (encode (.addis rd rn imm12)) = imm12 := by
  unfold fieldImm12 encode
  rw [BitVec.extractLsb'_append_eq_of_le (by decide),
    BitVec.extractLsb'_append_eq_of_le (by decide),
    BitVec.extractLsb'_append_eq_of_add_le (by decide)]
  exact BitVec.extractLsb'_eq_self

@[simp] theorem fieldSh2_encode_addis (rd rn : RegIndex) (imm12 : BitVec 12) : fieldSh2 (encode (.addis rd rn imm12)) = 0#2 := by
  unfold fieldSh2 encode
  rw [BitVec.extractLsb'_append_eq_of_le (by decide),
    BitVec.extractLsb'_append_eq_of_le (by decide),
    BitVec.extractLsb'_append_eq_of_le (by decide),
    BitVec.extractLsb'_append_eq_of_add_le (by decide)]
  exact BitVec.extractLsb'_eq_self

@[simp] theorem fieldHb_encode_addis (rd rn : RegIndex) (imm12 : BitVec 12) : fieldHb (encode (.addis rd rn imm12)) = 0xB1#8 := by
  unfold fieldHb encode
  rw [BitVec.extractLsb'_append_eq_of_le (by decide),
    BitVec.extractLsb'_append_eq_of_le (by decide),
    BitVec.extractLsb'_append_eq_of_le (by decide),
    BitVec.extractLsb'_append_eq_of_le (by decide)]
  exact BitVec.extractLsb'_eq_self

@[simp] theorem fieldRd_encode_subis (rd rn : RegIndex) (imm12 : BitVec 12) (sh2 : BitVec 2) : fieldRd (encode (.subis rd rn imm12 sh2)) = rd := by
  unfold fieldRd encode
  rw [BitVec.extractLsb'_append_eq_of_add_le (by decide)]
  exact BitVec.extractLsb'_eq_self

@[simp] theorem fieldRn_encode_subis (rd rn : RegIndex) (imm12 : BitVec 12) (sh2 : BitVec 2) : fieldRn (encode (.subis rd rn imm12 sh2)) = rn := by
  unfold fieldRn encode
  rw [BitVec.extractLsb'_append_eq_of_le (by decide),
    BitVec.extractLsb'_append_eq_of_add_le (by decide)]
  exact BitVec.extractLsb'_eq_self

@[simp] theorem fieldImm12_encode_subis (rd rn : RegIndex) (imm12 : BitVec 12) (sh2 : BitVec 2) : fieldImm12 (encode (.subis rd rn imm12 sh2)) = imm12 := by
  unfold fieldImm12 encode
  rw [BitVec.extractLsb'_append_eq_of_le (by decide),
    BitVec.extractLsb'_append_eq_of_le (by decide),
    BitVec.extractLsb'_append_eq_of_add_le (by decide)]
  exact BitVec.extractLsb'_eq_self

@[simp] theorem fieldSh2_encode_subis (rd rn : RegIndex) (imm12 : BitVec 12) (sh2 : BitVec 2) : fieldSh2 (encode (.subis rd rn imm12 sh2)) = sh2 := by
  unfold fieldSh2 encode
  rw [BitVec.extractLsb'_append_eq_of_le (by decide),
    BitVec.extractLsb'_append_eq_of_le (by decide),
    BitVec.extractLsb'_append_eq_of_le (by decide),
    BitVec.extractLsb'_append_eq_of_add_le (by decide)]
  exact BitVec.extractLsb'_eq_self

@[simp] theorem fieldHb_encode_subis (rd rn : RegIndex) (imm12 : BitVec 12) (sh2 : BitVec 2) : fieldHb (encode (.subis rd rn imm12 sh2)) = 0xF1#8 := by
  unfold fieldHb encode
  rw [BitVec.extractLsb'_append_eq_of_le (by decide),
    BitVec.extractLsb'_append_eq_of_le (by decide),
    BitVec.extractLsb'_append_eq_of_le (by decide),
    BitVec.extractLsb'_append_eq_of_le (by decide)]
  exact BitVec.extractLsb'_eq_self

@[simp] theorem fieldRd_encode_lsl (rd rn : RegIndex) (imms : BitVec 6) : fieldRd (encode (.lsl rd rn imms)) = rd := by
  unfold fieldRd encode
  rw [BitVec.extractLsb'_append_eq_of_add_le (by decide)]
  exact BitVec.extractLsb'_eq_self

@[simp] theorem fieldRn_encode_lsl (rd rn : RegIndex) (imms : BitVec 6) : fieldRn (encode (.lsl rd rn imms)) = rn := by
  unfold fieldRn encode
  rw [BitVec.extractLsb'_append_eq_of_le (by decide),
    BitVec.extractLsb'_append_eq_of_add_le (by decide)]
  exact BitVec.extractLsb'_eq_self

@[simp] theorem fieldImms_encode_lsl (rd rn : RegIndex) (imms : BitVec 6) : fieldImms (encode (.lsl rd rn imms)) = imms := by
  unfold fieldImms encode
  rw [BitVec.extractLsb'_append_eq_of_le (by decide),
    BitVec.extractLsb'_append_eq_of_le (by decide),
    BitVec.extractLsb'_append_eq_of_add_le (by decide)]
  exact BitVec.extractLsb'_eq_self

@[simp] theorem fieldOp11_encode_lsl (rd rn : RegIndex) (imms : BitVec 6) : fieldOp11 (encode (.lsl rd rn imms)) = 0x69B#11 := by
  unfold fieldOp11 encode
  rw [BitVec.extractLsb'_append_eq_of_le (by decide),
    BitVec.extractLsb'_append_eq_of_le (by decide),
    BitVec.extractLsb'_append_eq_of_le (by decide),
    BitVec.extractLsb'_append_eq_of_le (by decide)]
  exact BitVec.extractLsb'_eq_self

@[simp] theorem fieldRd_encode_lsr (rd rn : RegIndex) (immr : BitVec 6) : fieldRd (encode (.lsr rd rn immr)) = rd := by
  unfold fieldRd encode
  rw [BitVec.extractLsb'_append_eq_of_add_le (by decide)]
  exact BitVec.extractLsb'_eq_self

@[simp] theorem fieldRn_encode_lsr (rd rn : RegIndex) (immr : BitVec 6) : fieldRn (encode (.lsr rd rn immr)) = rn := by
  unfold fieldRn encode
  rw [BitVec.extractLsb'_append_eq_of_le (by decide),
    BitVec.extractLsb'_append_eq_of_add_le (by decide)]
  exact BitVec.extractLsb'_eq_self

@[simp] theorem fieldImmr_encode_lsr (rd rn : RegIndex) (immr : BitVec 6) : fieldImmr (encode (.lsr rd rn immr)) = immr := by
  unfold fieldImmr encode
  rw [BitVec.extractLsb'_append_eq_of_le (by decide),
    BitVec.extractLsb'_append_eq_of_le (by decide),
    BitVec.extractLsb'_append_eq_of_le (by decide),
    BitVec.extractLsb'_append_eq_of_add_le (by decide)]
  exact BitVec.extractLsb'_eq_self

@[simp] theorem fieldImms_encode_lsr (rd rn : RegIndex) (immr : BitVec 6) : fieldImms (encode (.lsr rd rn immr)) = 63#6 := by
  unfold fieldImms encode
  rw [BitVec.extractLsb'_append_eq_of_le (by decide),
    BitVec.extractLsb'_append_eq_of_le (by decide),
    BitVec.extractLsb'_append_eq_of_add_le (by decide)]
  exact BitVec.extractLsb'_eq_self

@[simp] theorem fieldRd_encode_movz (rd : RegIndex) (imm16 : BitVec 16) (hw : BitVec 2) : fieldRd (encode (.movz rd imm16 hw)) = rd := by
  unfold fieldRd encode
  rw [BitVec.extractLsb'_append_eq_of_add_le (by decide)]
  exact BitVec.extractLsb'_eq_self

@[simp] theorem fieldImm16_encode_movz (rd : RegIndex) (imm16 : BitVec 16) (hw : BitVec 2) : fieldImm16 (encode (.movz rd imm16 hw)) = imm16 := by
  unfold fieldImm16 encode
  rw [BitVec.extractLsb'_append_eq_of_le (by decide),
    BitVec.extractLsb'_append_eq_of_add_le (by decide)]
  exact BitVec.extractLsb'_eq_self

@[simp] theorem fieldHw_encode_movz (rd : RegIndex) (imm16 : BitVec 16) (hw : BitVec 2) : fieldHw (encode (.movz rd imm16 hw)) = hw := by
  unfold fieldHw encode
  rw [BitVec.extractLsb'_append_eq_of_le (by decide),
    BitVec.extractLsb'_append_eq_of_le (by decide),
    BitVec.extractLsb'_append_eq_of_add_le (by decide)]
  exact BitVec.extractLsb'_eq_self

@[simp] theorem fieldImm26_encode_b (imm26 : BitVec 26) : fieldImm26 (encode (.b imm26)) = imm26 := by
  unfold fieldImm26 encode
  rw [BitVec.extractLsb'_append_eq_of_add_le (by decide)]
  exact BitVec.extractLsb'_eq_self

@[simp] theorem fieldRn_encode_br (rn : RegIndex) : fieldRn (encode (.br rn)) = rn := by
  unfold fieldRn encode
  rw [BitVec.extractLsb'_append_eq_of_le (by decide),
    BitVec.extractLsb'_append_eq_of_add_le (by decide)]
  exact BitVec.extractLsb'_eq_self

@[simp] theorem fieldOp11_encode_br (rn : RegIndex) : fieldOp11 (encode (.br rn)) = 0x6B0#11 := by
  unfold fieldOp11 encode
  rw [BitVec.extractLsb'_append_eq_of_le (by decide),
    BitVec.extractLsb'_append_eq_of_le (by decide),
    BitVec.extractLsb'_append_eq_of_le (by decide)]
  exact BitVec.extractLsb'_eq_self

/-! ### Primary opcodes that hold part of an operand (R93) -/

/-- A field that takes all of the upper part and the top `m` bits of the lower part. -/
theorem extract_across {a b m n : Nat} (hi : BitVec a) (lo : BitVec b) (h : n = a + m) (hm : m ≤ b) :
    (hi ++ lo).extractLsb' (b - m) n = (hi ++ lo.extractLsb' (b - m) m).cast h.symm := by
  subst h
  apply BitVec.eq_of_getLsbD_eq
  intro i hi'
  simp only [BitVec.getLsbD_extractLsb', BitVec.getLsbD_append, BitVec.cast_eq, hi', decide_true, Bool.true_and]
  by_cases h1 : i < m
  · rw [if_pos (by omega), if_pos h1]
    simp [h1]
  · rw [if_neg (by omega), if_neg h1, show b - m + i - b = i - m by omega]

/-- Bit 21 of an ADDIS word is `imm12[11]`. -/
theorem fieldOp11_encode_addis (rd rn : RegIndex) (imm12 : BitVec 12) :
    fieldOp11 (encode (.addis rd rn imm12)) = 0x2C4#10 ++ imm12.extractLsb' 11 1 := by
  unfold fieldOp11 encode
  rw [BitVec.extractLsb'_append_eq_of_le (by decide), BitVec.extractLsb'_append_eq_of_le (by decide)]
  exact extract_across (m := 1) (0xB1#8 ++ 0#2) imm12 rfl (by decide)

/-- Bits 23 to 21 of a SUBIS word are `sh2` and `imm12[11]`. -/
theorem fieldOp11_encode_subis (rd rn : RegIndex) (imm12 : BitVec 12) (sh2 : BitVec 2) :
    fieldOp11 (encode (.subis rd rn imm12 sh2)) = 0xF1#8 ++ sh2 ++ imm12.extractLsb' 11 1 := by
  unfold fieldOp11 encode
  rw [BitVec.extractLsb'_append_eq_of_le (by decide), BitVec.extractLsb'_append_eq_of_le (by decide)]
  exact extract_across (m := 1) (0xF1#8 ++ sh2) imm12 rfl (by decide)

/-- Bit 21 of an LSR word is `immr[5]`. -/
theorem fieldOp11_encode_lsr (rd rn : RegIndex) (immr : BitVec 6) :
    fieldOp11 (encode (.lsr rd rn immr)) = 0x34D#10 ++ immr.extractLsb' 5 1 := by
  unfold fieldOp11 encode
  rw [BitVec.extractLsb'_append_eq_of_le (by decide), BitVec.extractLsb'_append_eq_of_le (by decide),
    BitVec.extractLsb'_append_eq_of_le (by decide)]
  exact extract_across (m := 1) 0x34D#10 immr rfl (by decide)

/-- Bits 22 and 21 of a MOVZ word are `hw`. -/
theorem fieldOp11_encode_movz (rd : RegIndex) (imm16 : BitVec 16) (hw : BitVec 2) :
    fieldOp11 (encode (.movz rd imm16 hw)) = 0x1A5#9 ++ hw := by
  unfold fieldOp11 encode
  rw [BitVec.extractLsb'_append_eq_of_le (by decide), BitVec.extractLsb'_append_eq_of_le (by decide)]
  exact BitVec.extractLsb'_eq_self

/-- Bits 25 to 21 of a B word are `imm26[25:21]`. -/
theorem fieldOp11_encode_b (imm26 : BitVec 26) :
    fieldOp11 (encode (.b imm26)) = 0x05#6 ++ imm26.extractLsb' 21 5 :=
  extract_across (m := 5) 0x05#6 imm26 rfl (by decide)

/-! ### Parts of the primary opcode (R81) -/

/-- The high byte is the upper eight bits of the primary opcode. -/
theorem fieldHb_eq (w : Word) : fieldHb w = (fieldOp11 w).extractLsb' 3 8 := by
  apply BitVec.eq_of_getLsbD_eq
  intro i hi
  have h : 3 + i < 11 := by omega
  simp [fieldHb, fieldOp11, hi, h, ← Nat.add_assoc]

/-! ### Dispatch (R82) -/

theorem decode_bCond {table : OpcodeTable} {split : ShiftSplit} {w : Word} (h : fieldHb w = 0x54#8) :
    decode table split w = .ok (decodeBCond w) := if_pos h

theorem decode_table {table : OpcodeTable} {split : ShiftSplit} {w : Word} {t : TableInstr}
    (h : fieldHb w ≠ 0x54#8) (ht : dispatchOp11 table split w = some t) :
    decode table split w = .ok (decodeFields t w) := by
  simp [decode, h, ht]

theorem decode_unknown {table : OpcodeTable} {split : ShiftSplit} {w : Word}
    (h : fieldHb w ≠ 0x54#8) (ht : table.find (fieldOp11 w) = none) :
    decode table split w = .error (.unknownOpcode w) := by
  simp [decode, h, dispatchOp11, ht]

/-- Outside the two shift opcodes, and everywhere under `by_opcode`, dispatch is the table's (R82, R86). -/
theorem dispatchOp11_eq_find {table : OpcodeTable} {split : ShiftSplit} {w : Word}
    (h : split = .byOpcode ∨ (fieldOp11 w ≠ 0x69A#11 ∧ fieldOp11 w ≠ 0x69B#11)) :
    dispatchOp11 table split w = table.find (fieldOp11 w) := by
  have hn : ¬(split = .byImms ∧ (fieldOp11 w = 0x69A#11 ∨ fieldOp11 w = 0x69B#11)) := by
    rintro ⟨rfl, h'⟩
    rcases h with h | ⟨h1, h2⟩
    · cases h
    · exact h'.elim h1 h2
  unfold dispatchOp11
  cases table.find (fieldOp11 w) <;> simp [hn]

/-- A word whose primary opcode the default table gives to an instruction that is no shift decodes to it. -/
theorem decode_default {split : ShiftSplit} {w : Word} {op : BitVec 11} {t : TableInstr} (hop : fieldOp11 w = op)
    (hf : defaultOpcodeTable.find op = some t)
    (hb : op.extractLsb' 3 8 ≠ 0x54#8 := by decide)
    (hs : op ≠ 0x69A#11 ∧ op ≠ 0x69B#11 := by decide) :
    decode defaultOpcodeTable split w = .ok (decodeFields t w) := by
  subst hop
  exact decode_table (fieldHb_eq w ▸ hb) ((dispatchOp11_eq_find (.inr hs)).trans hf)

end Sys2Proof
end

