-- ==== Sys2Proof/Laws/State.lean ====
section
/-! SUPPORT. One lemma per field per state update, and what an update leaves of the reads `x`, `byteAt` and `wordAt`:
later proofs rewrite with these and unfold no record update. -/

namespace Sys2Proof.Machine

/-! ### `setX` -/

@[simp] theorem State.setX_cur (s : State) (i : RegIndex) (v : DWord) :
    (s.setX i v).cur = s.cur := rfl

@[simp] theorem State.setX_nxt (s : State) (i : RegIndex) (v : DWord) :
    (s.setX i v).nxt = s.nxt.setX i v := rfl

@[simp] theorem State.setX_running (s : State) (i : RegIndex) (v : DWord) :
    (s.setX i v).running = s.running := rfl

@[simp] theorem State.setX_mem (s : State) (i : RegIndex) (v : DWord) :
    (s.setX i v).mem = s.mem := rfl

@[simp] theorem State.setX_out (s : State) (i : RegIndex) (v : DWord) :
    (s.setX i v).out = s.out := rfl

@[simp] theorem State.setX_cfg (s : State) (i : RegIndex) (v : DWord) :
    (s.setX i v).cfg = s.cfg := rfl

@[simp] theorem State.setX_x (s : State) (i : RegIndex) (v : DWord) (j : RegIndex) :
    (s.setX i v).x j = s.x j := rfl

@[simp] theorem State.setX_byteAt (s : State) (i : RegIndex) (v : DWord) (c : Addr) :
    (s.setX i v).byteAt c = s.byteAt c := rfl

@[simp] theorem State.setX_wordAt (s : State) (i : RegIndex) (v : DWord) (c : Addr) :
    (s.setX i v).wordAt c = s.wordAt c := rfl

/-! ### `setPc` -/

@[simp] theorem State.setPc_cur (s : State) (t : Addr) :
    (s.setPc t).cur = s.cur := rfl

@[simp] theorem State.setPc_running (s : State) (t : Addr) :
    (s.setPc t).running = s.running := rfl

@[simp] theorem State.setPc_mem (s : State) (t : Addr) :
    (s.setPc t).mem = s.mem := rfl

@[simp] theorem State.setPc_out (s : State) (t : Addr) :
    (s.setPc t).out = s.out := rfl

@[simp] theorem State.setPc_cfg (s : State) (t : Addr) :
    (s.setPc t).cfg = s.cfg := rfl

@[simp] theorem State.setPc_nxt_regs (s : State) (t : Addr) :
    (s.setPc t).nxt.regs = s.nxt.regs := rfl

@[simp] theorem State.setPc_nxt_pc (s : State) (t : Addr) :
    (s.setPc t).nxt.pc = t := rfl

@[simp] theorem State.setPc_nxt_z (s : State) (t : Addr) :
    (s.setPc t).nxt.z = s.nxt.z := rfl

@[simp] theorem State.setPc_nxt_n (s : State) (t : Addr) :
    (s.setPc t).nxt.n = s.nxt.n := rfl

@[simp] theorem State.setPc_x (s : State) (t : Addr) (j : RegIndex) :
    (s.setPc t).x j = s.x j := rfl

@[simp] theorem State.setPc_byteAt (s : State) (t : Addr) (c : Addr) :
    (s.setPc t).byteAt c = s.byteAt c := rfl

@[simp] theorem State.setPc_wordAt (s : State) (t : Addr) (c : Addr) :
    (s.setPc t).wordAt c = s.wordAt c := rfl

@[simp] theorem State.setPc_nxt_x (s : State) (t : Addr) (j : RegIndex) :
    (s.setPc t).nxt.x j = s.nxt.x j := rfl

/-! ### `advancePc` -/

@[simp] theorem State.advancePc_cur (s : State) :
    s.advancePc.cur = s.cur := rfl

@[simp] theorem State.advancePc_running (s : State) :
    s.advancePc.running = s.running := rfl

@[simp] theorem State.advancePc_mem (s : State) :
    s.advancePc.mem = s.mem := rfl

@[simp] theorem State.advancePc_out (s : State) :
    s.advancePc.out = s.out := rfl

@[simp] theorem State.advancePc_cfg (s : State) :
    s.advancePc.cfg = s.cfg := rfl

@[simp] theorem State.advancePc_nxt_regs (s : State) :
    s.advancePc.nxt.regs = s.nxt.regs := rfl

@[simp] theorem State.advancePc_nxt_pc (s : State) :
    s.advancePc.nxt.pc = s.cur.pc + 4#64 := rfl

@[simp] theorem State.advancePc_nxt_z (s : State) :
    s.advancePc.nxt.z = s.nxt.z := rfl

@[simp] theorem State.advancePc_nxt_n (s : State) :
    s.advancePc.nxt.n = s.nxt.n := rfl

@[simp] theorem State.advancePc_x (s : State) (j : RegIndex) :
    s.advancePc.x j = s.x j := rfl

@[simp] theorem State.advancePc_byteAt (s : State) (c : Addr) :
    s.advancePc.byteAt c = s.byteAt c := rfl

@[simp] theorem State.advancePc_wordAt (s : State) (c : Addr) :
    s.advancePc.wordAt c = s.wordAt c := rfl

@[simp] theorem State.advancePc_nxt_x (s : State) (j : RegIndex) :
    s.advancePc.nxt.x j = s.nxt.x j := rfl

/-! ### `setFlags` -/

@[simp] theorem State.setFlags_cur (s : State) (r : DWord) :
    (s.setFlags r).cur = s.cur := rfl

@[simp] theorem State.setFlags_running (s : State) (r : DWord) :
    (s.setFlags r).running = s.running := rfl

@[simp] theorem State.setFlags_mem (s : State) (r : DWord) :
    (s.setFlags r).mem = s.mem := rfl

@[simp] theorem State.setFlags_out (s : State) (r : DWord) :
    (s.setFlags r).out = s.out := rfl

@[simp] theorem State.setFlags_cfg (s : State) (r : DWord) :
    (s.setFlags r).cfg = s.cfg := rfl

@[simp] theorem State.setFlags_nxt_regs (s : State) (r : DWord) :
    (s.setFlags r).nxt.regs = s.nxt.regs := rfl

@[simp] theorem State.setFlags_nxt_pc (s : State) (r : DWord) :
    (s.setFlags r).nxt.pc = s.nxt.pc := rfl

@[simp] theorem State.setFlags_nxt_z (s : State) (r : DWord) :
    (s.setFlags r).nxt.z = flagZero r := rfl

@[simp] theorem State.setFlags_nxt_n (s : State) (r : DWord) :
    (s.setFlags r).nxt.n = flagNegative r := rfl

@[simp] theorem State.setFlags_x (s : State) (r : DWord) (j : RegIndex) :
    (s.setFlags r).x j = s.x j := rfl

@[simp] theorem State.setFlags_byteAt (s : State) (r : DWord) (c : Addr) :
    (s.setFlags r).byteAt c = s.byteAt c := rfl

@[simp] theorem State.setFlags_wordAt (s : State) (r : DWord) (c : Addr) :
    (s.setFlags r).wordAt c = s.wordAt c := rfl

@[simp] theorem State.setFlags_nxt_x (s : State) (r : DWord) (j : RegIndex) :
    (s.setFlags r).nxt.x j = s.nxt.x j := rfl

/-! ### `clearRunning` -/

@[simp] theorem State.clearRunning_cur (s : State) :
    s.clearRunning.cur = s.cur := rfl

@[simp] theorem State.clearRunning_nxt (s : State) :
    s.clearRunning.nxt = s.nxt := rfl

@[simp] theorem State.clearRunning_running (s : State) :
    s.clearRunning.running = false := rfl

@[simp] theorem State.clearRunning_mem (s : State) :
    s.clearRunning.mem = s.mem := rfl

@[simp] theorem State.clearRunning_cfg (s : State) :
    s.clearRunning.cfg = s.cfg := rfl

@[simp] theorem State.clearRunning_out_bus (s : State) :
    s.clearRunning.out.bus = s.out.bus := rfl

@[simp] theorem State.clearRunning_out_runClr (s : State) :
    s.clearRunning.out.runClr = true := rfl

@[simp] theorem State.clearRunning_out_diag (s : State) :
    s.clearRunning.out.diag = s.out.diag := rfl

@[simp] theorem State.clearRunning_x (s : State) (j : RegIndex) :
    s.clearRunning.x j = s.x j := rfl

@[simp] theorem State.clearRunning_byteAt (s : State) (c : Addr) :
    s.clearRunning.byteAt c = s.byteAt c := rfl

@[simp] theorem State.clearRunning_wordAt (s : State) (c : Addr) :
    s.clearRunning.wordAt c = s.wordAt c := rfl

/-! ### `emit` -/

@[simp] theorem State.emit_cur (s : State) (e : Diag) :
    (s.emit e).cur = s.cur := rfl

@[simp] theorem State.emit_nxt (s : State) (e : Diag) :
    (s.emit e).nxt = s.nxt := rfl

@[simp] theorem State.emit_running (s : State) (e : Diag) :
    (s.emit e).running = s.running := rfl

@[simp] theorem State.emit_mem (s : State) (e : Diag) :
    (s.emit e).mem = s.mem := rfl

@[simp] theorem State.emit_cfg (s : State) (e : Diag) :
    (s.emit e).cfg = s.cfg := rfl

@[simp] theorem State.emit_out_bus (s : State) (e : Diag) :
    (s.emit e).out.bus = s.out.bus := rfl

@[simp] theorem State.emit_out_runClr (s : State) (e : Diag) :
    (s.emit e).out.runClr = s.out.runClr := rfl

@[simp] theorem State.emit_out_diag (s : State) (e : Diag) :
    (s.emit e).out.diag = s.out.diag ++ [e] := rfl

@[simp] theorem State.emit_x (s : State) (e : Diag) (j : RegIndex) :
    (s.emit e).x j = s.x j := rfl

@[simp] theorem State.emit_byteAt (s : State) (e : Diag) (c : Addr) :
    (s.emit e).byteAt c = s.byteAt c := rfl

@[simp] theorem State.emit_wordAt (s : State) (e : Diag) (c : Addr) :
    (s.emit e).wordAt c = s.wordAt c := rfl

/-! ### `logAccess` -/

@[simp] theorem State.logAccess_cur (s : State) (b : BusAccess) :
    (s.logAccess b).cur = s.cur := rfl

@[simp] theorem State.logAccess_nxt (s : State) (b : BusAccess) :
    (s.logAccess b).nxt = s.nxt := rfl

@[simp] theorem State.logAccess_running (s : State) (b : BusAccess) :
    (s.logAccess b).running = s.running := rfl

@[simp] theorem State.logAccess_mem (s : State) (b : BusAccess) :
    (s.logAccess b).mem = s.mem := rfl

@[simp] theorem State.logAccess_cfg (s : State) (b : BusAccess) :
    (s.logAccess b).cfg = s.cfg := rfl

@[simp] theorem State.logAccess_out_bus (s : State) (b : BusAccess) :
    (s.logAccess b).out.bus = s.out.bus ++ [b] := rfl

@[simp] theorem State.logAccess_out_runClr (s : State) (b : BusAccess) :
    (s.logAccess b).out.runClr = s.out.runClr := rfl

@[simp] theorem State.logAccess_out_diag (s : State) (b : BusAccess) :
    (s.logAccess b).out.diag = s.out.diag := rfl

@[simp] theorem State.logAccess_x (s : State) (b : BusAccess) (j : RegIndex) :
    (s.logAccess b).x j = s.x j := rfl

@[simp] theorem State.logAccess_byteAt (s : State) (b : BusAccess) (c : Addr) :
    (s.logAccess b).byteAt c = s.byteAt c := rfl

@[simp] theorem State.logAccess_wordAt (s : State) (b : BusAccess) (c : Addr) :
    (s.logAccess b).wordAt c = s.wordAt c := rfl

/-! ### `storeWord` -/

@[simp] theorem State.storeWord_cur (s : State) (a : Addr) (v : Word) :
    (s.storeWord a v).cur = s.cur := rfl

@[simp] theorem State.storeWord_nxt (s : State) (a : Addr) (v : Word) :
    (s.storeWord a v).nxt = s.nxt := rfl

@[simp] theorem State.storeWord_running (s : State) (a : Addr) (v : Word) :
    (s.storeWord a v).running = s.running := rfl

@[simp] theorem State.storeWord_mem (s : State) (a : Addr) (v : Word) :
    (s.storeWord a v).mem = s.mem.writeWord s.cfg.endian a v := rfl

@[simp] theorem State.storeWord_out (s : State) (a : Addr) (v : Word) :
    (s.storeWord a v).out = s.out := rfl

@[simp] theorem State.storeWord_cfg (s : State) (a : Addr) (v : Word) :
    (s.storeWord a v).cfg = s.cfg := rfl

@[simp] theorem State.storeWord_x (s : State) (a : Addr) (v : Word) (j : RegIndex) :
    (s.storeWord a v).x j = s.x j := rfl

/-! ### `beginCycle` -/

@[simp] theorem State.beginCycle_cur (s : State) :
    s.beginCycle.cur = s.cur := rfl

@[simp] theorem State.beginCycle_nxt (s : State) :
    s.beginCycle.nxt = s.cur := rfl

@[simp] theorem State.beginCycle_running (s : State) :
    s.beginCycle.running = s.running := rfl

@[simp] theorem State.beginCycle_mem (s : State) :
    s.beginCycle.mem = s.mem := rfl

@[simp] theorem State.beginCycle_out (s : State) :
    s.beginCycle.out = CycleOut.empty := rfl

@[simp] theorem State.beginCycle_cfg (s : State) :
    s.beginCycle.cfg = s.cfg := rfl

@[simp] theorem State.beginCycle_x (s : State) (j : RegIndex) :
    s.beginCycle.x j = s.x j := rfl

@[simp] theorem State.beginCycle_byteAt (s : State) (c : Addr) :
    s.beginCycle.byteAt c = s.byteAt c := rfl

@[simp] theorem State.beginCycle_wordAt (s : State) (c : Addr) :
    s.beginCycle.wordAt c = s.wordAt c := rfl

/-! ### `commit` -/

@[simp] theorem State.commit_cur (s : State) :
    s.commit.cur = s.nxt := rfl

@[simp] theorem State.commit_nxt (s : State) :
    s.commit.nxt = s.nxt := rfl

@[simp] theorem State.commit_running (s : State) :
    s.commit.running = s.running := rfl

@[simp] theorem State.commit_mem (s : State) :
    s.commit.mem = s.mem := rfl

@[simp] theorem State.commit_out (s : State) :
    s.commit.out = s.out := rfl

@[simp] theorem State.commit_cfg (s : State) :
    s.commit.cfg = s.cfg := rfl

@[simp] theorem State.commit_byteAt (s : State) (c : Addr) :
    s.commit.byteAt c = s.byteAt c := rfl

@[simp] theorem State.commit_wordAt (s : State) (c : Addr) :
    s.commit.wordAt c = s.wordAt c := rfl

/-! ### `boot` -/

@[simp] theorem State.boot_cur (cfg : Config) (pc : Addr) (m : Memory) :
    (State.boot cfg pc m).cur = Proc.initial pc := rfl

@[simp] theorem State.boot_nxt (cfg : Config) (pc : Addr) (m : Memory) :
    (State.boot cfg pc m).nxt = Proc.initial pc := rfl

@[simp] theorem State.boot_running (cfg : Config) (pc : Addr) (m : Memory) :
    (State.boot cfg pc m).running = true := rfl

@[simp] theorem State.boot_mem (cfg : Config) (pc : Addr) (m : Memory) : (State.boot cfg pc m).mem = m := rfl

@[simp] theorem State.boot_out (cfg : Config) (pc : Addr) (m : Memory) :
    (State.boot cfg pc m).out = CycleOut.empty := rfl

@[simp] theorem State.boot_cfg (cfg : Config) (pc : Addr) (m : Memory) : (State.boot cfg pc m).cfg = cfg := rfl

@[simp] theorem Proc.initial_pc (pc : Addr) : (Proc.initial pc).pc = pc := rfl

@[simp] theorem Proc.initial_z (pc : Addr) : (Proc.initial pc).z = false := rfl

@[simp] theorem Proc.initial_n (pc : Addr) : (Proc.initial pc).n = false := rfl

end Sys2Proof.Machine
end

