-- ==== Sys2Proof/Laws/Memory.lean ====
section
/-! SUPPORT. Memory: a byte written is read back and no other byte changes; the canonical form is kept and determines the
contents; the same for words. -/

namespace Sys2Proof.Machine

/-! ### The canonical form -/

theorem Memory.wfFrom_mono {lo lo' : Nat} (h : lo' ≤ lo) :
    ∀ {m : Memory}, Memory.wfFrom lo m = true → Memory.wfFrom lo' m = true
  | [], _ => rfl
  | (a, v) :: rest, hm => by
    simp only [Memory.wfFrom, Bool.and_eq_true, decide_eq_true_eq] at hm ⊢
    exact ⟨⟨by omega, hm.1.2⟩, hm.2⟩

/-- An address below every listed one reads as an unlisted address does. -/
theorem Memory.read_of_lt {lo a : Nat} (h : a < lo) :
    ∀ {m : Memory}, Memory.wfFrom lo m = true → m.read a = unlistedByte
  | [], _ => rfl
  | (b, u) :: rest, hm => by
    simp only [Memory.wfFrom, Bool.and_eq_true, decide_eq_true_eq] at hm
    have hne : b ≠ a := by omega
    simp only [Memory.read, if_neg hne]
    exact Memory.read_of_lt (by omega : a < b + 1) hm.2

theorem Memory.wfFrom_push {lo a : Nat} {v : Byte} {rest : Memory} (hlo : lo ≤ a)
    (h : Memory.wfFrom (a + 1) rest = true) : Memory.wfFrom lo (Memory.push a v rest) = true := by
  unfold Memory.push
  split
  · exact Memory.wfFrom_mono (by omega) h
  · simp_all [Memory.wfFrom]

theorem Memory.wfFrom_write {a : Nat} {v : Byte} :
    ∀ {m : Memory} {lo : Nat}, lo ≤ a → Memory.wfFrom lo m = true → Memory.wfFrom lo (m.write a v) = true
  | [], _, hlo, _ => Memory.wfFrom_push hlo rfl
  | (b, u) :: rest, lo, hlo, hm => by
    simp only [Memory.wfFrom, Bool.and_eq_true, decide_eq_true_eq] at hm
    unfold Memory.write
    split_ifs with h1 h2
    · simp only [Memory.wfFrom, Bool.and_eq_true, decide_eq_true_eq]
      exact ⟨hm.1, Memory.wfFrom_write (by omega) hm.2⟩
    · exact Memory.wfFrom_push hlo (h2 ▸ hm.2)
    · refine Memory.wfFrom_push hlo ?_
      simp only [Memory.wfFrom, Bool.and_eq_true, decide_eq_true_eq]
      exact ⟨⟨by omega, hm.1.2⟩, hm.2⟩

/-- Every byte write keeps the canonical form. -/
theorem Memory.wf_write {m : Memory} {a : Nat} {v : Byte} (h : m.wf = true) : (m.write a v).wf = true :=
  Memory.wfFrom_write (Nat.zero_le a) h

/-- Every word write keeps the canonical form. -/
theorem Memory.wf_writeWord {m : Memory} {e : Endian} {a : Addr} {v : Word} (h : m.wf = true) :
    (m.writeWord e a v).wf = true :=
  Memory.wf_write (Memory.wf_write (Memory.wf_write (Memory.wf_write h)))

/-! ### Reading after writing -/

theorem Memory.read_push_self {a : Nat} {v : Byte} {rest : Memory}
    (h : Memory.wfFrom (a + 1) rest = true) : (Memory.push a v rest).read a = v := by
  unfold Memory.push
  split
  · rw [Memory.read_of_lt (Nat.lt_succ_self a) h]; simp_all
  · simp [Memory.read]

theorem Memory.read_push_ne {a c : Nat} {v : Byte} {rest : Memory} (hne : c ≠ a) :
    (Memory.push a v rest).read c = rest.read c := by
  unfold Memory.push
  split
  · rfl
  · simp [Memory.read, hne.symm]

theorem Memory.read_write_from {a c : Nat} {v : Byte} :
    ∀ {m : Memory} {lo : Nat}, Memory.wfFrom lo m = true →
      (m.write a v).read c = if c = a then v else m.read c
  | [], _, _ => by
    unfold Memory.write
    split_ifs with h
    · subst h; exact Memory.read_push_self rfl
    · exact Memory.read_push_ne h
  | (b, u) :: rest, _, hm => by
    simp only [Memory.wfFrom, Bool.and_eq_true, decide_eq_true_eq] at hm
    have ih := Memory.read_write_from (a := a) (c := c) (v := v) hm.2
    unfold Memory.write
    by_cases h1 : b < a
    · rw [if_pos h1]
      simp only [Memory.read, ih]
      by_cases h2 : b = c
      · rw [if_pos h2, if_pos h2, if_neg (by omega)]
      · rw [if_neg h2, if_neg h2]
    · rw [if_neg h1]
      by_cases h2 : b = a
      · subst h2
        rw [if_pos rfl]
        by_cases h3 : c = b
        · subst h3; rw [if_pos rfl]; exact Memory.read_push_self hm.2
        · rw [if_neg h3, Memory.read_push_ne h3]
          simp only [Memory.read]
          rw [if_neg (Ne.symm h3)]
      · rw [if_neg h2]
        by_cases h3 : c = a
        · subst h3
          rw [if_pos rfl]
          refine Memory.read_push_self ?_
          simp only [Memory.wfFrom, Bool.and_eq_true, decide_eq_true_eq]
          exact ⟨⟨by omega, hm.1.2⟩, hm.2⟩
        · rw [if_neg h3]; exact Memory.read_push_ne h3

/-- A byte written is read back, and every other byte reads as before. -/
theorem Memory.read_write {m : Memory} {a c : Nat} {v : Byte} (h : m.wf = true) :
    (m.write a v).read c = if c = a then v else m.read c :=
  Memory.read_write_from h

/-- Canonical memories with equal contents are equal lists. -/
theorem Memory.ext_from :
    ∀ {m m' : Memory} {lo : Nat}, Memory.wfFrom lo m = true → Memory.wfFrom lo m' = true →
      (∀ a, m.read a = m'.read a) → m = m'
  | [], [], _, _, _, _ => rfl
  | [], (b, u) :: rest, _, _, hm', heq => by
    simp only [Memory.wfFrom, Bool.and_eq_true, bne_iff_ne] at hm'
    have := heq b
    simp [Memory.read] at this
    exact absurd this.symm hm'.1.2
  | (b, u) :: rest, [], _, hm, _, heq => by
    simp only [Memory.wfFrom, Bool.and_eq_true, bne_iff_ne] at hm
    have := heq b
    simp [Memory.read] at this
    exact absurd this hm.1.2
  | (b, u) :: rest, (b', u') :: rest', _, hm, hm', heq => by
    simp only [Memory.wfFrom, Bool.and_eq_true, bne_iff_ne, decide_eq_true_eq] at hm hm'
    have hb : b = b' := by
      rcases Nat.lt_trichotomy b b' with h | h | h
      · have := heq b
        rw [Memory.read_of_lt (lo := b') h (m := (b', u') :: rest')
          (by simp [Memory.wfFrom, hm'.1.2, hm'.2])] at this
        simp [Memory.read] at this
        exact absurd this hm.1.2
      · exact h
      · have := heq b'
        rw [Memory.read_of_lt (lo := b) h (m := (b, u) :: rest)
          (by simp [Memory.wfFrom, hm.1.2, hm.2])] at this
        simp [Memory.read] at this
        exact absurd this.symm hm'.1.2
    subst hb
    have hu : u = u' := by simpa [Memory.read] using heq b
    subst hu
    refine congrArg _ (Memory.ext_from hm.2 hm'.2 fun a => ?_)
    by_cases h : b = a
    · subst h
      rw [Memory.read_of_lt (Nat.lt_succ_self b) hm.2, Memory.read_of_lt (Nat.lt_succ_self b) hm'.2]
    · simpa [Memory.read, h] using heq a

/-- Equal contents, equal data: what the canonical form is for. -/
theorem Memory.ext {m m' : Memory} (h : m.wf = true) (h' : m'.wf = true)
    (heq : ∀ a, m.read a = m'.read a) : m = m' :=
  Memory.ext_from h h' heq

/-! ### Words -/

/-- Assembling the bytes of a word gives the word, in either byte order (R53, R54). -/
theorem wordOfBytes_byteOfWord (e : Endian) (v : Word) :
    wordOfBytes e (byteOfWord e v 0) (byteOfWord e v 1) (byteOfWord e v 2) (byteOfWord e v 3) = v := by
  cases e <;>
    (simp only [wordOfBytes, byteOfWord]
     rw [BitVec.extractLsb'_append_extractLsb'_eq_extractLsb' (by rfl),
       BitVec.extractLsb'_append_extractLsb'_eq_extractLsb' (by rfl),
       BitVec.extractLsb'_append_extractLsb'_eq_extractLsb' (by rfl)]
     exact BitVec.extractLsb'_eq_self)

/-- After a word write, each byte address holds its byte of the word or what it held before (R54). -/
theorem Memory.read_writeWord {m : Memory} {e : Endian} {a b : Addr} {v : Word} (h : m.wf = true) :
    (m.writeWord e a v).read b.toNat =
      if b = a + 3#64 then byteOfWord e v 3
      else if b = a + 2#64 then byteOfWord e v 2
      else if b = a + 1#64 then byteOfWord e v 1
      else if b = a then byteOfWord e v 0
      else m.read b.toNat := by
  unfold Memory.writeWord
  rw [Memory.read_write (Memory.wf_write (Memory.wf_write (Memory.wf_write h))),
    Memory.read_write (Memory.wf_write (Memory.wf_write h)), Memory.read_write (Memory.wf_write h),
    Memory.read_write h]
  simp only [BitVec.toNat_inj]

/-- A byte address of a state after a word write (R54). -/
theorem State.byteAt_storeWord {s : State} {a b : Addr} {v : Word} (h : s.mem.wf = true) :
    (s.storeWord a v).byteAt b =
      if b = a + 3#64 then byteOfWord s.cfg.endian v 3
      else if b = a + 2#64 then byteOfWord s.cfg.endian v 2
      else if b = a + 1#64 then byteOfWord s.cfg.endian v 1
      else if b = a then byteOfWord s.cfg.endian v 0
      else s.byteAt b :=
  Memory.read_writeWord h

/-- A word stored is read back (R53, R54), in either byte order, at any address, the top of the address space included. -/
theorem State.wordAt_storeWord {s : State} {a : Addr} {v : Word} (h : s.mem.wf = true) :
    (s.storeWord a v).wordAt a = v := by
  have e0 : (a + 1#64 = a + 3#64) = False := by simp
  have e1 : (a + 2#64 = a + 3#64) = False := by simp
  have e2 : (a + 1#64 = a + 2#64) = False := by simp
  have e3 : (a = a + 3#64) = False := by simp
  have e4 : (a = a + 2#64) = False := by simp
  have e5 : (a = a + 1#64) = False := by simp
  simp only [State.wordAt, State.byteAt_storeWord h, State.storeWord_cfg, e0, e1, e2, e3, e4, e5,
    if_true, if_false]
  exact wordOfBytes_byteOfWord _ v

/-- A word store changes the four bytes of its word and nothing else (R54). -/
theorem State.byteAt_storeWord_of_ne {s : State} {a b : Addr} {v : Word} (h : s.mem.wf = true)
    (h0 : b ≠ a) (h1 : b ≠ a + 1#64) (h2 : b ≠ a + 2#64) (h3 : b ≠ a + 3#64) :
    (s.storeWord a v).byteAt b = s.byteAt b := by
  rw [State.byteAt_storeWord h, if_neg h3, if_neg h2, if_neg h1, if_neg h0]

/-! ### What a byte write can list -/

theorem Memory.mem_push {a : Nat} {v : Byte} {c : Host.Cell} {rest : Memory}
    (h : c ∈ Memory.push a v rest) : c.1 = a ∨ c ∈ rest := by
  unfold Memory.push at h
  split_ifs at h
  · exact .inr h
  · exact (List.mem_cons.mp h).imp_left fun h => by rw [h]

/-- Every entry after a byte write is the written address or was listed before. -/
theorem Memory.mem_write {a : Nat} {v : Byte} {c : Host.Cell} :
    ∀ {m : Memory}, c ∈ m.write a v → c.1 = a ∨ c ∈ m
  | [], h => .imp_right (fun h => by simp at h) (Memory.mem_push h)
  | (b, u) :: rest, h => by
    unfold Memory.write at h
    split_ifs at h with h1 h2
    · rcases List.mem_cons.mp h with h | h
      · exact .inr (h ▸ List.mem_cons_self)
      · exact (Memory.mem_write h).imp_right (List.mem_cons_of_mem _)
    · exact (Memory.mem_push h).imp_right (List.mem_cons_of_mem _)
    · exact Memory.mem_push h

/-- A word write at an address in range keeps every listed byte inside the window (R52, R54). -/
theorem Memory.within_writeWord {cfg : Config} {m : Memory} {e : Endian} {a : Addr} {v : Word}
    (h : Memory.within cfg m) (hr : inRange cfg a = true) : Memory.within cfg (m.writeWord e a v) := by
  simp only [inRange, Bool.and_eq_true] at hr
  have key : ∀ (m : Memory) (b : Addr) (u : Byte), inWindow cfg b = true → Memory.within cfg m →
      Memory.within cfg (m.write b.toNat u) := by
    intro m b u hb hm c hc
    rcases Memory.mem_write hc with hc | hc
    · rw [hc]
      exact ⟨b.isLt, by simpa using hb⟩
    · exact hm c hc
  exact key _ _ _ hr.2 (key _ _ _ hr.1.2 (key _ _ _ hr.1.1.2 (key _ _ _ hr.1.1.1 h)))

end Sys2Proof.Machine
end

