-- ==== Sys2Proof/Laws/Ops.lean ====
section
/-! SUPPORT. For each shared operation, once, everything it can answer. -/

namespace Sys2Proof.Machine

/-! ### Registers -/

/-- A record after a register write: the register gets the value unless it is 31, every other is kept (R21). -/
theorem Proc.x_setX (p : Proc) (i j : RegIndex) (v : DWord) :
    (p.setX i v).x j = if j = i ∧ j ≠ xzr then v else p.x j := by
  by_cases hi : i = xzr
  · subst hi
    simp only [Proc.setX, if_pos]
    rw [if_neg (by rintro ⟨h, h'⟩; exact h' h)]
  · by_cases hj : j = xzr
    · subst hj
      rw [if_neg (by simp)]
      simp [Proc.x]
    · by_cases h : j = i
      · subst h
        rw [if_pos ⟨rfl, hj⟩]
        simp [Proc.x, Proc.setX, hi]
      · rw [if_neg (fun h' => h h'.1)]
        have hn : i.toNat ≠ j.toNat := fun e => h (BitVec.eq_of_toNat_eq e.symm)
        simp only [Proc.x, Proc.setX, if_neg hi, if_neg hj]
        exact Vector.getElem_set_ne _ _ hn

@[simp] theorem Proc.x_xzr (p : Proc) : p.x xzr = 0#64 := by simp [Proc.x]

@[simp] theorem Proc.setX_xzr (p : Proc) (v : DWord) : p.setX xzr v = p := by simp [Proc.setX]

@[simp] theorem Proc.setX_pc (p : Proc) (i : RegIndex) (v : DWord) : (p.setX i v).pc = p.pc := by
  unfold Proc.setX; split <;> rfl

@[simp] theorem Proc.setX_z (p : Proc) (i : RegIndex) (v : DWord) : (p.setX i v).z = p.z := by
  unfold Proc.setX; split <;> rfl

@[simp] theorem Proc.setX_n (p : Proc) (i : RegIndex) (v : DWord) : (p.setX i v).n = p.n := by
  unfold Proc.setX; split <;> rfl

/-- No register write reaches the stored slot 31 (R21). -/
theorem Proc.setX_slot31 (p : Proc) (i : RegIndex) (v : DWord) : (p.setX i v).regs[31] = p.regs[31] := by
  unfold Proc.setX
  split
  · rfl
  · next h =>
    have hn : i.toNat ≠ 31 := fun e => h (BitVec.eq_of_toNat_eq (by simpa using e))
    exact Vector.getElem_set_ne i.isLt (by decide) hn

/-! ### Flags -/

theorem flagZero_iff (r : DWord) : flagZero r = true ↔ r = 0#64 := by simp [flagZero]

theorem flagNegative_iff (r : DWord) : flagNegative r = true ↔ r.toInt < 0 := by simp [flagNegative]

/-- N is bit 63 of the result (R29). -/
theorem flagNegative_eq_msb (r : DWord) : flagNegative r = r.msb := by
  rw [BitVec.msb_eq_toInt]; rfl

/-! ### Admission -/

theorem Region.holds_iff (r : Region) (a : Addr) :
    Region.holds r a = true ↔ r.first.toNat ≤ a.toNat ∧ a.toNat ≤ r.last.toNat := by
  simp [Region.holds, BitVec.le_def]

theorem inWindow_iff (cfg : Config) (a : Addr) :
    inWindow cfg a = true ↔ ∃ r ∈ cfg.memWindow, r.first.toNat ≤ a.toNat ∧ a.toNat ≤ r.last.toNat := by
  simp [inWindow, Region.holds_iff]

/-- The low two bits are 0 exactly at a multiple of 4. -/
theorem low_bits_zero_iff (a : Addr) : a.extractLsb' 0 2 = 0#2 ↔ a.toNat % 4 = 0 := by
  rw [← BitVec.toNat_inj]; simp [BitVec.extractLsb'_toNat]

/-- The model's check is the admission of R52 and R55. -/
theorem admits_iff (cfg : Config) (a : Addr) : admits cfg a = true ↔ Admissible cfg a := by
  have hr : inRange cfg a = true ↔ ∀ k : Nat, k < 4 → inWindow cfg (a + BitVec.ofNat 64 k) = true := by
    simp only [inRange, Bool.and_eq_true]
    constructor
    · rintro ⟨⟨⟨h0, h1⟩, h2⟩, h3⟩ k hk
      interval_cases k
      · simpa using h0
      · exact h1
      · exact h2
      · exact h3
    · intro h
      exact ⟨⟨⟨by simpa using h 0 (by omega), h 1 (by omega)⟩, h 2 (by omega)⟩, h 3 (by omega)⟩
  have ha : alignmentAllowed cfg a = true ↔ cfg.alignPolicy = .passthrough ∨ a.toNat % 4 = 0 := by
    unfold alignmentAllowed
    cases cfg.alignPolicy <;> simp [low_bits_zero_iff]
  simp only [admits, Bool.and_eq_true, hr, ha, Admissible, inWindow_iff]

theorem admits_inRange {cfg : Config} {a : Addr} (h : admits cfg a = true) : inRange cfg a = true := by
  simp only [admits, Bool.and_eq_true] at h; exact h.1

/-! ### The memory primitives -/

theorem State.withRead_of_admits {s : State} {a : Addr} (h : admits s.cfg a = true) (k : Word → State → Result) :
    s.withRead a k = k (s.wordAt a) (s.logAccess (.read a (s.wordAt a))) := if_pos h

theorem State.withRead_of_not {s : State} {a : Addr} (h : admits s.cfg a = false) (k : Word → State → Result) :
    s.withRead a k = .fault (.memFault a) := if_neg (by simp [h])

/-- A read that completes was admitted, and the rest of the cycle completed on the word read (R53). -/
theorem State.withRead_next {s t : State} {a : Addr} {k : Word → State → Result} :
    s.withRead a k = .next t ↔
      admits s.cfg a = true ∧ k (s.wordAt a) (s.logAccess (.read a (s.wordAt a))) = .next t := by
  cases h : admits s.cfg a
  · rw [State.withRead_of_not h]; simp
  · rw [State.withRead_of_admits h]; simp

theorem State.withWrite_of_admits {s : State} {a : Addr} {v : Word} (h : admits s.cfg a = true) (k : State → Result) :
    s.withWrite a v k = k ((s.storeWord a v).logAccess (.write a v)) := if_pos h

theorem State.withWrite_of_not {s : State} {a : Addr} {v : Word} (h : admits s.cfg a = false) (k : State → Result) :
    s.withWrite a v k = .fault (.memFault a) := if_neg (by simp [h])

/-- A write that completes was admitted, and the rest of the cycle completed on the stored memory (R54). -/
theorem State.withWrite_next {s t : State} {a : Addr} {v : Word} {k : State → Result} :
    s.withWrite a v k = .next t ↔
      admits s.cfg a = true ∧ k ((s.storeWord a v).logAccess (.write a v)) = .next t := by
  cases h : admits s.cfg a
  · rw [State.withWrite_of_not h]; simp
  · rw [State.withWrite_of_admits h]; simp

/-! ### Ends of an instruction -/

theorem State.finish_eq (s : State) (e : Diag) : s.finish e = .next (s.advancePc.emit e) := rfl

theorem State.finishAt_eq (s : State) (t : Addr) (e : Diag) : s.finishAt t e = .next ((s.setPc t).emit e) := rfl

/-- The flag-setting ALU shape always completes, in this state. -/
theorem aluSetFlags_eq (id : TableInstr) (rd : RegIndex) (r : DWord) (s : State) :
    aluSetFlags id rd r s = .next ((((s.setX rd r).setFlags r).advancePc).emit (.decoded (.table id))) := rfl

/-- The flag-keeping ALU shape always completes, in this state. -/
theorem aluKeepFlags_eq (id : TableInstr) (rd : RegIndex) (r : DWord) (s : State) :
    aluKeepFlags id rd r s = .next (((s.setX rd r).advancePc).emit (.decoded (.table id))) := rfl

/-- B.cond always completes, in this state. -/
theorem branchOnCond_eq (cond : BitVec 4) (imm19 : BitVec 19) (s : State) :
    branchOnCond cond imm19 s = .next ((s.setPc
      (if condHolds cond s.cur.z s.cur.n then s.cur.pc + condOffset imm19 else s.cur.pc + 4#64)).emit
        (.decoded .bCond)) := rfl

/-- A narrow store completes exactly where its word is admitted, in this state. -/
theorem storeSpliced_next {id : TableInstr} {ea : Addr} {f : Word → Word} {s t : State} :
    storeSpliced id ea f s = .next t ↔ admits s.cfg ea = true ∧
      t = (((((s.logAccess (.read ea (s.wordAt ea))).storeWord ea (f (s.wordAt ea))).logAccess
        (.write ea (f (s.wordAt ea)))).advancePc).emit (.decoded (.table id))) := by
  simp only [storeSpliced, State.withRead_next, State.withWrite_next, State.finish_eq, State.logAccess_cfg]
  constructor
  · rintro ⟨h, -, h'⟩
    exact ⟨h, (Host.Outcome.next.inj h').symm⟩
  · rintro ⟨h, rfl⟩
    exact ⟨h, h, rfl⟩

/-- A narrow load completes exactly where its word is admitted, in this state. -/
theorem loadNarrow_next {id : TableInstr} {rt : RegIndex} {ea : Addr} {f : Word → DWord} {s t : State} :
    loadNarrow id rt ea f s = .next t ↔ admits s.cfg ea = true ∧
      t = ((((s.logAccess (.read ea (s.wordAt ea))).setX rt (f (s.wordAt ea))).advancePc).emit
        (.decoded (.table id))) := by
  simp only [loadNarrow, State.withRead_next, State.finish_eq]
  constructor
  · rintro ⟨h, h'⟩
    exact ⟨h, (Host.Outcome.next.inj h').symm⟩
  · rintro ⟨h, rfl⟩
    exact ⟨h, rfl⟩

/-- The flag setters are the instructions with a result for the flags (R27). -/
theorem flagResult_isSome (i : Instr) (s : State) : (flagResult i s).isSome = setsFlags i := by
  cases i <;> rfl

/-! ### The cycle and the step -/

theorem commitDone_next {r : Result} {t : State} :
    commitDone r = .next t ↔ ∃ u, r = .next u ∧ t = u.commit := by
  cases r <;> simp [commitDone, eq_comm]

theorem commitDone_fault {r : Result} {f : Fault} : commitDone r = .fault f ↔ r = .fault f := by
  cases r <;> simp [commitDone]

theorem commitDone_refused {r : Result} {q : Refusal} : commitDone r = .refused q ↔ r = .refused q := by
  cases r <;> simp [commitDone]

theorem State.live_iff (s : State) : s.live = true ↔ s.running = true ∧ s.cfg.opcodeTable.isMap = true := by
  simp [State.live]

theorem step_of_live {s : State} (h : s.live = true) : step s = commitDone (cycle s) := by
  rw [State.live_iff] at h
  simp [step, runLoopWith, h.1, h.2, cycle]

/-- The state in which the fetched word is executed: `nxt = cur`, the fetch logged. -/
theorem cycle_of_admits {s : State} (h : admits s.cfg s.cur.pc = true) :
    cycle s = executeWord exec (fetchedWord s) (s.beginCycle.logAccess (.read s.cur.pc (fetchedWord s))) :=
  if_pos h

theorem cycle_of_not {s : State} (h : admits s.cfg s.cur.pc = false) :
    cycle s = .fault (.memFault s.cur.pc) := if_neg (by simp [h])

theorem executeWord_eq (w : Word) (s : State) : executeWord exec w s =
    match decode s.cfg.opcodeTable s.cfg.shiftSplit w with
    | .ok i => exec i s
    | .error _ => execUnknown w s := rfl

/-- A step that completes: the session was live, the fetch was admitted, the fetched word completed, and its `nxt` was
committed. -/
theorem step_next {s t : State} : step s = .next t ↔
    s.live = true ∧ admits s.cfg s.cur.pc = true ∧
      ∃ u, executeWord exec (fetchedWord s) (s.beginCycle.logAccess (.read s.cur.pc (fetchedWord s))) = .next u ∧
        t = u.commit := by
  constructor
  · intro h
    have hl : s.live = true := by
      by_contra hn
      simp only [State.live_iff, not_and_or, Bool.not_eq_true] at hn
      unfold step runLoopWith at h
      rcases hn with hn | hn
      · simp only [hn] at h; split at h <;> simp at h
      · simp [hn] at h
    rw [step_of_live hl, commitDone_next] at h
    obtain ⟨u, hu, rfl⟩ := h
    cases ha : admits s.cfg s.cur.pc
    · rw [cycle_of_not ha] at hu; cases hu
    · rw [cycle_of_admits ha] at hu; exact ⟨hl, rfl, u, hu, rfl⟩
  · rintro ⟨hl, ha, u, hu, rfl⟩
    rw [step_of_live hl, cycle_of_admits ha, hu]; rfl

end Sys2Proof.Machine
end

