-- ==== Sys2Proof/Laws/Exec.lean ====
section
/-! SUPPORT. What `exec` answers for each instruction, once: the next state as a chain of named updates, or the fault. Later
proofs rewrite with these and unfold no meaning. -/

namespace Sys2Proof.Machine

/-! ### Arithmetic and logic -/

theorem exec_adds (rd rn rm : RegIndex) (s : State) : exec (.adds rd rn rm) s =
    .next ((((s.setX rd (s.x rn + s.x rm)).setFlags (s.x rn + s.x rm)).advancePc).emit (.decoded (.table .adds))) := rfl

theorem exec_subs (rd rn rm : RegIndex) (s : State) : exec (.subs rd rn rm) s =
    .next ((((s.setX rd (s.x rn - s.x rm)).setFlags (s.x rn - s.x rm)).advancePc).emit (.decoded (.table .subs))) := rfl

theorem exec_addis (rd rn : RegIndex) (imm12 : BitVec 12) (s : State) : exec (.addis rd rn imm12) s =
    .next ((((s.setX rd (s.x rn + addisOperand imm12)).setFlags (s.x rn + addisOperand imm12)).advancePc).emit (.decoded (.table .addis))) := rfl

theorem exec_subis (rd rn : RegIndex) (imm12 : BitVec 12) (sh2 : BitVec 2) (s : State) : exec (.subis rd rn imm12 sh2) s =
    .next ((((s.setX rd (s.x rn - subisOperand sh2 imm12)).setFlags (s.x rn - subisOperand sh2 imm12)).advancePc).emit (.decoded (.table .subis))) := rfl

theorem exec_ands (rd rn rm : RegIndex) (s : State) : exec (.ands rd rn rm) s =
    .next ((((s.setX rd (s.x rn &&& s.x rm)).setFlags (s.x rn &&& s.x rm)).advancePc).emit (.decoded (.table .ands))) := rfl

theorem exec_lsl (rd rn : RegIndex) (imms : BitVec 6) (s : State) : exec (.lsl rd rn imms) s =
    .next ((((s.setX rd (s.x rn <<< lslAmount imms)).setFlags (s.x rn <<< lslAmount imms)).advancePc).emit (.decoded (.table .lsl))) := rfl

theorem exec_eor (rd rn rm : RegIndex) (s : State) : exec (.eor rd rn rm) s =
    .next (((s.setX rd (s.x rn ^^^ s.x rm)).advancePc).emit (.decoded (.table .eor))) := rfl

theorem exec_orr (rd rn rm : RegIndex) (s : State) : exec (.orr rd rn rm) s =
    .next (((s.setX rd (s.x rn ||| s.x rm)).advancePc).emit (.decoded (.table .orr))) := rfl

theorem exec_lsr (rd rn : RegIndex) (immr : BitVec 6) (s : State) : exec (.lsr rd rn immr) s =
    .next (((s.setX rd (s.x rn >>> lsrAmount immr)).advancePc).emit (.decoded (.table .lsr))) := rfl

theorem exec_movz (rd : RegIndex) (imm16 : BitVec 16) (hw : BitVec 2) (s : State) : exec (.movz rd imm16 hw) s =
    .next (((s.setX rd (movzValue imm16 hw)).advancePc).emit (.decoded (.table .movz))) := rfl

/-! ### Branches, halt, unknown -/

theorem exec_bEq (imm19 : BitVec 19) (s : State) : exec (.bEq imm19) s =
    .next ((s.setPc (if condHolds 0x0#4 s.cur.z s.cur.n then s.cur.pc + condOffset imm19
      else s.cur.pc + 4#64)).emit (.decoded .bCond)) := rfl

theorem exec_bNe (imm19 : BitVec 19) (s : State) : exec (.bNe imm19) s =
    .next ((s.setPc (if condHolds 0x1#4 s.cur.z s.cur.n then s.cur.pc + condOffset imm19
      else s.cur.pc + 4#64)).emit (.decoded .bCond)) := rfl

theorem exec_bGe (imm19 : BitVec 19) (s : State) : exec (.bGe imm19) s =
    .next ((s.setPc (if condHolds 0xA#4 s.cur.z s.cur.n then s.cur.pc + condOffset imm19
      else s.cur.pc + 4#64)).emit (.decoded .bCond)) := rfl

theorem exec_bLt (imm19 : BitVec 19) (s : State) : exec (.bLt imm19) s =
    .next ((s.setPc (if condHolds 0xB#4 s.cur.z s.cur.n then s.cur.pc + condOffset imm19
      else s.cur.pc + 4#64)).emit (.decoded .bCond)) := rfl

theorem exec_bGt (imm19 : BitVec 19) (s : State) : exec (.bGt imm19) s =
    .next ((s.setPc (if condHolds 0xC#4 s.cur.z s.cur.n then s.cur.pc + condOffset imm19
      else s.cur.pc + 4#64)).emit (.decoded .bCond)) := rfl

theorem exec_bLe (imm19 : BitVec 19) (s : State) : exec (.bLe imm19) s =
    .next ((s.setPc (if condHolds 0xD#4 s.cur.z s.cur.n then s.cur.pc + condOffset imm19
      else s.cur.pc + 4#64)).emit (.decoded .bCond)) := rfl

theorem exec_bUnrecognised (cond : BitVec 4) (imm19 : BitVec 19) (s : State) : exec (.bUnrecognised cond imm19) s =
    .next ((s.setPc (s.cur.pc + 4#64)).emit (.unknownCond cond)) := rfl

theorem exec_b (imm26 : BitVec 26) (s : State) : exec (.b imm26) s =
    .next ((s.setPc (s.cur.pc + branchOffset imm26)).emit (.decoded (.table .b))) := rfl

theorem exec_br (rn : RegIndex) (s : State) : exec (.br rn) s =
    .next ((s.setPc (s.x rn)).emit (.decoded (.table .br))) := rfl

theorem exec_hlt (s : State) : exec .hlt s =
    .next ((s.clearRunning.advancePc).emit (.decoded (.table .hlt))) := rfl

theorem execUnknown_eq (w : Word) (s : State) : execUnknown w s =
    .next (s.advancePc.emit (.unknownOpcode w)) := rfl

/-! ### Loads and stores: one admitted word, or the fault at its address; LDUR, two -/

theorem exec_stur (rt rn : RegIndex) (imm9 : BitVec 9) (s : State) : exec (.stur rt rn imm9) s =
    if admits s.cfg (effectiveAddress s rn imm9) then
      .next ((((s.storeWord (effectiveAddress s rn imm9) (storedWord (s.x rt))).logAccess
        (.write (effectiveAddress s rn imm9) (storedWord (s.x rt)))).advancePc).emit (.decoded (.table .stur)))
    else .fault (.memFault (effectiveAddress s rn imm9)) := rfl

/-- The read-modify-write shape, its second admission being the first's again. -/
theorem storeSpliced_eq (id : TableInstr) (ea : Addr) (f : Word → Word) (s : State) : storeSpliced id ea f s =
    if admits s.cfg ea then
      .next (((((s.logAccess (.read ea (s.wordAt ea))).storeWord ea (f (s.wordAt ea))).logAccess
        (.write ea (f (s.wordAt ea)))).advancePc).emit (.decoded (.table id)))
    else .fault (.memFault ea) := by
  cases h : admits s.cfg ea
  · exact State.withRead_of_not h _
  · rw [if_pos rfl]; exact storeSpliced_next.mpr ⟨h, rfl⟩

theorem exec_sturb (rt rn : RegIndex) (imm9 : BitVec 9) (s : State) : exec (.sturb rt rn imm9) s =
    storeSpliced .sturb (effectiveAddress s rn imm9) (fun old => spliceByte old (s.x rt)) s := rfl

theorem exec_sturh (rt rn : RegIndex) (imm9 : BitVec 9) (s : State) : exec (.sturh rt rn imm9) s =
    storeSpliced .sturh (effectiveAddress s rn imm9) (fun old => spliceHalf old (s.x rt)) s := rfl

theorem exec_ldur (rt rn : RegIndex) (imm9 : BitVec 9) (s : State) : exec (.ldur rt rn imm9) s =
    if admits s.cfg (effectiveAddress s rn imm9) then
      if admits s.cfg (effectiveAddress s rn imm9 + 4#64) then
        .next (((((s.logAccess (.read (effectiveAddress s rn imm9) (s.wordAt (effectiveAddress s rn imm9)))).logAccess
          (.read (effectiveAddress s rn imm9 + 4#64) (s.wordAt (effectiveAddress s rn imm9 + 4#64)))).setX rt
            (s.wordAt (effectiveAddress s rn imm9 + 4#64) ++ s.wordAt (effectiveAddress s rn imm9))).advancePc).emit
              (.decoded (.table .ldur)))
      else .fault (.memFault (effectiveAddress s rn imm9 + 4#64))
    else .fault (.memFault (effectiveAddress s rn imm9)) := rfl

theorem loadNarrow_eq (id : TableInstr) (rt : RegIndex) (ea : Addr) (f : Word → DWord) (s : State) :
    loadNarrow id rt ea f s =
    if admits s.cfg ea then
      .next ((((s.logAccess (.read ea (s.wordAt ea))).setX rt (f (s.wordAt ea))).advancePc).emit
        (.decoded (.table id)))
    else .fault (.memFault ea) := rfl

theorem exec_ldurb (rt rn : RegIndex) (imm9 : BitVec 9) (s : State) : exec (.ldurb rt rn imm9) s =
    loadNarrow .ldurb rt (effectiveAddress s rn imm9)
      (fun v => widen8 s.cfg.narrowLoadExt (v.extractLsb' 0 8)) s := rfl

theorem exec_ldurh (rt rn : RegIndex) (imm9 : BitVec 9) (s : State) : exec (.ldurh rt rn imm9) s =
    loadNarrow .ldurh rt (effectiveAddress s rn imm9)
      (fun v => widen16 s.cfg.narrowLoadExt (v.extractLsb' 0 16)) s := rfl

end Sys2Proof.Machine
end

