-- ==== Sys2Proof/Laws/PerInstr.lean ====
section
/-! SUPPORT. Statements made once per instruction. `OpcodeRow`: the word an instruction encodes to carries the primary
opcode of its row of the default table (R95), or the high byte 0x54 of B.cond (R82). -/

namespace Sys2Proof.Laws.OpcodeRow

/-- The row of the opcode table an instruction stands for, or none for B.cond, which is in no row (R95). -/
def row : Instr → Option TableInstr
  | .adds _ _ _ => some .adds
  | .subs _ _ _ => some .subs
  | .addis _ _ _ => some .addis
  | .subis _ _ _ _ => some .subis
  | .ands _ _ _ => some .ands
  | .eor _ _ _ => some .eor
  | .orr _ _ _ => some .orr
  | .lsl _ _ _ => some .lsl
  | .lsr _ _ _ => some .lsr
  | .movz _ _ _ => some .movz
  | .stur _ _ _ => some .stur
  | .sturb _ _ _ => some .sturb
  | .sturh _ _ _ => some .sturh
  | .ldur _ _ _ => some .ldur
  | .ldurb _ _ _ => some .ldurb
  | .ldurh _ _ _ => some .ldurh
  | .b _ => some .b
  | .br _ => some .br
  | .hlt => some .hlt
  | .bEq _ => none
  | .bNe _ => none
  | .bGe _ => none
  | .bLt _ => none
  | .bGt _ => none
  | .bLe _ => none
  | .bUnrecognised _ _ => none

/-- The encoded word dispatches to the instruction's own row. -/
def Statement (i : Instr) : Prop :=
  i.wellFormed .byOpcode = true →
    match row i with
    | some t => fieldHb (encode i) ≠ 0x54#8 ∧ defaultOpcodeTable.find (fieldOp11 (encode i)) = some t
    | none => fieldHb (encode i) = 0x54#8

/-- From the primary opcode to the statement's two facts. -/
theorem of_op11 {w : Word} {op : BitVec 11} {t : TableInstr} (h : fieldOp11 w = op)
    (hb : op.extractLsb' 3 8 ≠ 0x54#8) (hf : defaultOpcodeTable.find op = some t) :
    fieldHb w ≠ 0x54#8 ∧ defaultOpcodeTable.find (fieldOp11 w) = some t :=
  ⟨by rw [fieldHb_eq, h]; exact hb, by rw [h]; exact hf⟩

theorem adds (rd : RegIndex) (rn : RegIndex) (rm : RegIndex) : Statement (.adds rd rn rm) := fun _ => of_op11 (fieldOp11_encodeR _ _ _ _) (by decide) (by decide)

theorem subs (rd : RegIndex) (rn : RegIndex) (rm : RegIndex) : Statement (.subs rd rn rm) := fun _ => of_op11 (fieldOp11_encodeR _ _ _ _) (by decide) (by decide)

theorem addis (rd : RegIndex) (rn : RegIndex) (imm12 : BitVec 12) : Statement (.addis rd rn imm12) := fun _ => by
  have h : ∀ b : BitVec 1, (0x2C4#10 ++ b).extractLsb' 3 8 ≠ 0x54#8 ∧
      defaultOpcodeTable.find (0x2C4#10 ++ b) = some .addis := by decide
  exact of_op11 (fieldOp11_encode_addis _ _ _) (h _).1 (h _).2

theorem subis (rd : RegIndex) (rn : RegIndex) (imm12 : BitVec 12) (sh2 : BitVec 2) : Statement (.subis rd rn imm12 sh2) := fun hw => by
  have h : ∀ (b : BitVec 1) (s : BitVec 2), s.getLsbD 1 = false →
      (0xF1#8 ++ s ++ b).extractLsb' 3 8 ≠ 0x54#8 ∧
        defaultOpcodeTable.find (0xF1#8 ++ s ++ b) = some .subis := by decide
  have hs : sh2.getLsbD 1 = false := by simpa [Instr.wellFormed] using hw
  exact of_op11 (fieldOp11_encode_subis _ _ _ _) (h _ _ hs).1 (h _ _ hs).2

theorem ands (rd : RegIndex) (rn : RegIndex) (rm : RegIndex) : Statement (.ands rd rn rm) := fun _ => of_op11 (fieldOp11_encodeR _ _ _ _) (by decide) (by decide)

theorem eor (rd : RegIndex) (rn : RegIndex) (rm : RegIndex) : Statement (.eor rd rn rm) := fun _ => of_op11 (fieldOp11_encodeR _ _ _ _) (by decide) (by decide)

theorem orr (rd : RegIndex) (rn : RegIndex) (rm : RegIndex) : Statement (.orr rd rn rm) := fun _ => of_op11 (fieldOp11_encodeR _ _ _ _) (by decide) (by decide)

theorem lsl (rd : RegIndex) (rn : RegIndex) (imms : BitVec 6) : Statement (.lsl rd rn imms) := fun _ => of_op11 (fieldOp11_encode_lsl _ _ _) (by decide) (by decide)

theorem lsr (rd : RegIndex) (rn : RegIndex) (immr : BitVec 6) : Statement (.lsr rd rn immr) := fun hw => by
  have h : ∀ x : BitVec 6, x.getLsbD 5 = false → x.extractLsb' 5 1 = 0#1 := by decide
  have hs : immr.getLsbD 5 = false := by simpa [Instr.wellFormed] using hw
  exact of_op11 (op := 0x69A#11) ((fieldOp11_encode_lsr _ _ _).trans (by rw [h _ hs]; rfl)) (by decide) (by decide)

theorem movz (rd : RegIndex) (imm16 : BitVec 16) (hw : BitVec 2) : Statement (.movz rd imm16 hw) := fun _ => by
  have h : ∀ b : BitVec 2, (0x1A5#9 ++ b).extractLsb' 3 8 ≠ 0x54#8 ∧
      defaultOpcodeTable.find (0x1A5#9 ++ b) = some .movz := by decide
  exact of_op11 (fieldOp11_encode_movz _ _ _) (h _).1 (h _).2

theorem stur (rt : RegIndex) (rn : RegIndex) (imm9 : BitVec 9) : Statement (.stur rt rn imm9) := fun _ => of_op11 (fieldOp11_encodeD _ _ _ _) (by decide) (by decide)

theorem sturb (rt : RegIndex) (rn : RegIndex) (imm9 : BitVec 9) : Statement (.sturb rt rn imm9) := fun _ => of_op11 (fieldOp11_encodeD _ _ _ _) (by decide) (by decide)

theorem sturh (rt : RegIndex) (rn : RegIndex) (imm9 : BitVec 9) : Statement (.sturh rt rn imm9) := fun _ => of_op11 (fieldOp11_encodeD _ _ _ _) (by decide) (by decide)

theorem ldur (rt : RegIndex) (rn : RegIndex) (imm9 : BitVec 9) : Statement (.ldur rt rn imm9) := fun _ => of_op11 (fieldOp11_encodeD _ _ _ _) (by decide) (by decide)

theorem ldurb (rt : RegIndex) (rn : RegIndex) (imm9 : BitVec 9) : Statement (.ldurb rt rn imm9) := fun _ => of_op11 (fieldOp11_encodeD _ _ _ _) (by decide) (by decide)

theorem ldurh (rt : RegIndex) (rn : RegIndex) (imm9 : BitVec 9) : Statement (.ldurh rt rn imm9) := fun _ => of_op11 (fieldOp11_encodeD _ _ _ _) (by decide) (by decide)

theorem b (imm26 : BitVec 26) : Statement (.b imm26) := fun _ => by
  have h : ∀ b : BitVec 5, (0x05#6 ++ b).extractLsb' 3 8 ≠ 0x54#8 ∧
      defaultOpcodeTable.find (0x05#6 ++ b) = some .b := by decide
  exact of_op11 (fieldOp11_encode_b _) (h _).1 (h _).2

theorem br (rn : RegIndex) : Statement (.br rn) := fun _ => of_op11 (fieldOp11_encode_br _) (by decide) (by decide)

theorem hlt : Statement .hlt := fun _ => of_op11 (op := 0x6A2#11) (by decide) (by decide) (by decide)

theorem bEq (imm19 : BitVec 19) : Statement (.bEq imm19) := fun _ => fieldHb_encodeCB _ _

theorem bNe (imm19 : BitVec 19) : Statement (.bNe imm19) := fun _ => fieldHb_encodeCB _ _

theorem bGe (imm19 : BitVec 19) : Statement (.bGe imm19) := fun _ => fieldHb_encodeCB _ _

theorem bLt (imm19 : BitVec 19) : Statement (.bLt imm19) := fun _ => fieldHb_encodeCB _ _

theorem bGt (imm19 : BitVec 19) : Statement (.bGt imm19) := fun _ => fieldHb_encodeCB _ _

theorem bLe (imm19 : BitVec 19) : Statement (.bLe imm19) := fun _ => fieldHb_encodeCB _ _

theorem bUnrecognised (cond : BitVec 4) (imm19 : BitVec 19) : Statement (.bUnrecognised cond imm19) := fun _ => fieldHb_encodeCB _ _

end Sys2Proof.Laws.OpcodeRow
end

