-- ==== Sys2Proof/Tests/Slice0.lean ====
section
/-! SUPPORT. Tests on fixed values. Every expected value is a row of `spec/95_test_vectors.md`, named by its number, or is
worked out by hand from the rule named. The `witness_` theorems show that the hypotheses of the statements are met. -/

namespace Sys2Proof.Tests

open Sys2Proof Sys2Proof.Machine

/-! ### Helpers: the common set-up of 95_test_vectors.md -/

/-- The data address `D`. -/
def dataAddr : Addr := 0x400100#64

/-- The reset state with the given registers. -/
def withRegs (rs : List (RegIndex × DWord)) : State :=
  rs.foldl (fun s r => { s with cur := s.cur.setX r.1 r.2 }) State.reset

/-- The state with the given current flags. -/
def withFlags (s : State) (z n : Bool) : State := { s with cur := { s.cur with z := z, n := n } }

/-- The state with the given words stored. -/
def withWords (s : State) (ws : List (Addr × Word)) : State :=
  ws.foldl (fun s w => s.storeWord w.1 w.2) s

/-- The state with another PC. -/
def withPc (s : State) (pc : Addr) : State := { s with cur := { s.cur with pc := pc } }

/-- One step on `s` with the word `w` where the step fetches. -/
def runWord (s : State) (w : Nat) : Result := step (s.withFetchWord 32 w)

/-- The outcome is a next state of which `p` holds. -/
def nextWith (r : Result) (p : State → Bool) : Bool :=
  match r with
  | .next t => p t
  | .fault _ => false
  | .refused _ => false

/-- The address of the fault, if the outcome is one. -/
def faultAt : Result → Option Addr
  | .fault (.memFault a) => some a
  | .next _ => none
  | .refused _ => none

/-- The outcome is a next state. -/
def isNext (r : Result) : Bool := nextWith r fun _ => true

theorem exists_next {r : Result} (h : isNext r = true) : ∃ t, r = .next t := by
  cases r with
  | next t => exact ⟨t, rfl⟩
  | fault _ => exact absurd h Bool.false_ne_true
  | refused _ => exact absurd h Bool.false_ne_true

theorem fault_of_faultAt {r : Result} {a : Addr} (h : faultAt r = some a) : r = .fault (.memFault a) := by
  cases r with
  | next _ => cases h
  | refused _ => cases h
  | fault f => cases f; cases h; rfl

/-- Register `i` holds `v`, the flags are `z` and `n`, and the PC is 0x400004. -/
def regFlags (i : RegIndex) (v : DWord) (z n : Bool) (t : State) : Bool :=
  t.x i == v && t.cur.z == z && t.cur.n == n && t.cur.pc == 0x400004#64

/-- The flags are `z` and `n`, the PC is 0x400004, and the registers are those of `s`. -/
def flagsOnly (s : State) (z n : Bool) (t : State) : Bool :=
  t.cur.regs == s.cur.regs && t.cur.z == z && t.cur.n == n && t.cur.pc == 0x400004#64

/-- The PC is `pc`, and registers and flags are those of `s`. -/
def jumped (s : State) (pc : Addr) (t : State) : Bool :=
  t.cur.pc == pc && t.cur.regs == s.cur.regs && t.cur.z == s.cur.z && t.cur.n == s.cur.n

/-! ### WellFormed smoke: one ill-formed term for each check, and its neighbour that passes -/

theorem test_wf_subis_sh2 : Instr.wellFormed .byOpcode (.subis 3 1 1 2) = false ∧
    Instr.wellFormed .byOpcode (.subis 3 1 1 3) = false ∧ Instr.wellFormed .byOpcode (.subis 3 1 1 1) = true := by decide

theorem test_wf_lsl_imms63 : Instr.wellFormed .byImms (.lsl 3 1 63) = false ∧
    Instr.wellFormed .byOpcode (.lsl 3 1 63) = true ∧ Instr.wellFormed .byImms (.lsl 3 1 62) = true := by decide

theorem test_wf_lsr_immr32 : Instr.wellFormed .byOpcode (.lsr 3 1 32) = false ∧
    Instr.wellFormed .byImms (.lsr 3 1 32) = true ∧ Instr.wellFormed .byOpcode (.lsr 3 1 31) = true := by decide

theorem test_wf_bUnrecognised_cond : Instr.wellFormed .byOpcode (.bUnrecognised 0xA 4) = false ∧
    Instr.wellFormed .byOpcode (.bUnrecognised 0xE 4) = true := by decide

/-! ### Decoding: words of the test vectors and of R84 to R91, one or more for each constructor -/

/-- A1, A8, A21, A24, A26: format R. Fields are all different so that a swap shows. -/
theorem test_decode_register : decodeTableWord 32 0xAB020023 = some (.adds 3 1 2) ∧
    decodeTableWord 32 0xEB020023 = some (.subs 3 1 2) ∧ decodeTableWord 32 0xEA020023 = some (.ands 3 1 2) ∧
    decodeTableWord 32 0xCA020023 = some (.eor 3 1 2) ∧ decodeTableWord 32 0xAA020023 = some (.orr 3 1 2) ∧
    decodeTableWord 32 0xAB021423 = some (.adds 3 1 2) := by decide

/-- A13, A18, A19, A39: formats I and IW. A16: `sh2 = 01` is no ADDIS. -/
theorem test_decode_immediate : decodeTableWord 32 0xB13FFC23 = some (.addis 3 1 0xFFF) ∧
    decodeTableWord 32 0xF1400423 = some (.subis 3 1 1 1) ∧ decodeTableWord 32 0xF17FFC23 = some (.subis 3 1 0xFFF 1) ∧
    decodeTableWord 32 0xD2A00023 = some (.movz 3 1 1) ∧ decodeTableWord 32 0xB1400423 = none := by decide

/-- A28, A33, A34, A37: the shifts under `by_opcode`; and A32, A33, A37 under `by_imms` (the note after A40). -/
theorem test_decode_shift : decodeTableWord 32 0xD37CEC23 = some (.lsl 3 1 59) ∧
    decodeTableWord 32 0xD3585C23 = some (.lsr 3 1 24) ∧ decodeTableWord 32 0xD344FC23 = some (.lsr 3 1 4) ∧
    decodeTableWord 32 0xD37CFC23 = some (.lsl 3 1 63) ∧
    decode defaultOpcodeTable .byImms 0xD3585C23#32 = .ok (.lsl 3 1 23) ∧
    decode defaultOpcodeTable .byImms 0xD37CFC23#32 = .ok (.lsr 3 1 60) ∧
    decode defaultOpcodeTable .byImms 0xD360FC23#32 = .ok (.lsr 3 1 32) := by
  refine ⟨by decide, by decide, by decide, by decide, rfl, rfl, rfl⟩

/-- M2, M4, M5, M8, M9, M11, M13: format D. -/
theorem test_decode_memory : decodeTableWord 32 0xF81F8022 = some (.stur 2 1 0x1F8) ∧
    decodeTableWord 32 0x38001022 = some (.sturb 2 1 1) ∧ decodeTableWord 32 0x78000022 = some (.sturh 2 1 0) ∧
    decodeTableWord 32 0xF84FF023 = some (.ldur 3 1 0x0FF) ∧ decodeTableWord 32 0xF8500023 = some (.ldur 3 1 0x100) ∧
    decodeTableWord 32 0x38400023 = some (.ldurb 3 1 0) ∧ decodeTableWord 32 0x78400023 = some (.ldurh 3 1 0) := by decide

/-- L2.3: format CB, offset +16; C2 and C6 for imm19 and the ignored bit 4. -/
theorem test_decode_cond : decodeTableWord 32 0x54000080 = some (.bEq 4) ∧
    decodeTableWord 32 0x54000081 = some (.bNe 4) ∧ decodeTableWord 32 0x5400008A = some (.bGe 4) ∧
    decodeTableWord 32 0x5400008B = some (.bLt 4) ∧ decodeTableWord 32 0x5400008C = some (.bGt 4) ∧
    decodeTableWord 32 0x5400008D = some (.bLe 4) ∧ decodeTableWord 32 0x5400008E = some (.bUnrecognised 0xE 4) ∧
    decodeTableWord 32 0x54FFFFE0 = some (.bEq 0x7FFFF) ∧ decodeTableWord 32 0x54000050 = some (.bEq 2) := by decide

/-- B2, B5, B6, B10: formats B, BR and HLT; B11 to B16: the unknown instruction. -/
theorem test_decode_sequencing : decodeTableWord 32 0x17FFFFFF = some (.b 0x3FFFFFF) ∧
    decodeTableWord 32 0x16000000 = some (.b 0x2000000) ∧ decodeTableWord 32 0xD61F00A0 = some (.br 5) ∧
    decodeTableWord 32 0xD4424680 = some .hlt ∧ decodeTableWord 32 0xFFFFFFFF = none ∧
    decodeTableWord 32 0x00000000 = none ∧ decodeTableWord 32 0xD503201F = none ∧
    decodeTableWord 32 0x91000421 = none ∧ decodeTableWord 32 0xAB220023 = none ∧
    decodeTableWord 32 0xD65F03C0 = none := by decide

/-- R53, R56: the word 0x11223344 as bytes under both byte orders. -/
theorem test_byte_order : wordOfBytes .little 0x44 0x33 0x22 0x11 = 0x11223344#32 ∧
    wordOfBytes .big 0x11 0x22 0x33 0x44 = 0x11223344#32 ∧ byteOfWord .little 0x11223344 0 = 0x44#8 ∧
    byteOfWord .big 0x11223344 0 = 0x11#8 ∧ byteOfWord .big 0x11223344 3 = 0x44#8 := by decide

/-! ### One step: arithmetic and logic -/

/-- A2, A3. -/
theorem test_adds :
    nextWith (runWord (withRegs [(1, 0x7FFFFFFFFFFFFFFF), (2, 1)]) 0xAB020023)
      (regFlags 3 0x8000000000000000 false true) = true ∧
    nextWith (runWord (withRegs [(1, 0xFFFFFFFFFFFFFFFF), (2, 1)]) 0xAB020023) (regFlags 3 0 true false) = true := by decide

/-- A4, A6: the zero register as destination, and a source that is also the destination. -/
theorem test_adds_registers :
    nextWith (runWord (withRegs [(1, -3), (2, 1)]) 0xAB02003F) (flagsOnly (withRegs [(1, -3), (2, 1)]) false true) = true ∧
    nextWith (runWord (withRegs [(1, 0x40)]) 0xAB010021) (regFlags 1 0x80 false false) = true := by decide

/-- A8, A9, A10. -/
theorem test_subs :
    nextWith (runWord (withRegs [(1, 5), (2, 7)]) 0xEB020023) (regFlags 3 0xFFFFFFFFFFFFFFFE false true) = true ∧
    nextWith (runWord (withRegs [(2, 0x8000000000000000)]) 0xEB020023)
      (regFlags 3 0x8000000000000000 false true) = true ∧
    nextWith (runWord (withRegs [(1, 0x8000000000000000), (2, 1)]) 0xEB020023)
      (regFlags 3 0x7FFFFFFFFFFFFFFF false false) = true := by decide

/-- A13, A15. -/
theorem test_addis :
    nextWith (runWord (withRegs [(1, 1)]) 0xB13FFC23) (regFlags 3 0x1000 false false) = true ∧
    nextWith (runWord (withRegs [(1, 0xFFFFFFFFFFFFFFFF)]) 0xB1000423) (regFlags 3 0 true false) = true := by decide

/-- A17, A18, A19. -/
theorem test_subis :
    nextWith (runWord (withRegs []) 0xF1000423) (regFlags 3 0xFFFFFFFFFFFFFFFF false true) = true ∧
    nextWith (runWord (withRegs [(1, 0x1000)]) 0xF1400423) (regFlags 3 0 true false) = true ∧
    nextWith (runWord (withRegs []) 0xF17FFC23) (regFlags 3 0xFFFFFFFFFF001000 false true) = true := by decide

/-- A21, A22. -/
theorem test_ands :
    nextWith (runWord (withRegs [(1, 0xFFFFFFFFFFFFFFFF), (2, 0x8000000000000000)]) 0xEA020023)
      (regFlags 3 0x8000000000000000 false true) = true ∧
    nextWith (runWord (withRegs [(1, 0xF0), (2, 0x0F)]) 0xEA020023) (regFlags 3 0 true false) = true := by decide

/-- A24, A25. -/
theorem test_eor :
    nextWith (runWord (withFlags (withRegs [(1, 0xFF), (2, 0x0F)]) true true) 0xCA020023)
      (regFlags 3 0xF0 true true) = true ∧
    nextWith (runWord (withRegs [(1, 0x1234)]) 0xCA010023) (regFlags 3 0 false false) = true := by decide

/-- A26, A27. -/
theorem test_orr :
    nextWith (runWord (withFlags (withRegs [(1, 0xF0), (2, 0x0F)]) true false) 0xAA020023)
      (regFlags 3 0xFF true false) = true ∧
    nextWith (runWord (withRegs [(2, 0xFFFFFFFFFFFFFFFE)]) 0xAA0203E3)
      (regFlags 3 0xFFFFFFFFFFFFFFFE false false) = true := by decide

/-- A28, A30, A31, A32. -/
theorem test_lsl :
    nextWith (runWord (withRegs [(1, 0xF)]) 0xD37CEC23) (regFlags 3 0xF0 false false) = true ∧
    nextWith (runWord (withRegs [(1, 3)]) 0xD3610023) (regFlags 3 0x8000000000000000 false true) = true ∧
    nextWith (runWord (withRegs [(1, 0x100000000)]) 0xD3607C23) (regFlags 3 0 true false) = true ∧
    nextWith (runWord (withRegs [(1, 0xFFFFFFFFFFFFFFFC)]) 0xD360FC23)
      (regFlags 3 0xFFFFFFFFFFFFFFFC false true) = true := by decide

/-- A33, A34, A36. -/
theorem test_lsr :
    nextWith (runWord (withRegs [(1, 0xFF000000)]) 0xD3585C23) (regFlags 3 0xFF false false) = true ∧
    nextWith (runWord (withFlags (withRegs [(1, 0xFFFFFFFFFFFFFFFF)]) true true) 0xD344FC23)
      (regFlags 3 0x0FFFFFFFFFFFFFFF true true) = true ∧
    nextWith (runWord (withRegs [(1, 0x8000000000000000)]) 0xD35FFC23) (regFlags 3 0x100000000 false false) = true := by
  decide

/-- A38, A39, A40. -/
theorem test_movz :
    nextWith (runWord (withFlags (withRegs [(3, 0xFFFFFFFFFFFFFFFF)]) true true) 0xD29FFFE3)
      (regFlags 3 0xFFFF true true) = true ∧
    nextWith (runWord (withRegs []) 0xD2A00023) (regFlags 3 1 false false) = true ∧
    nextWith (runWord (withRegs []) 0xD28000FF) (flagsOnly (withRegs []) false false) = true := by decide

/-! ### One step: loads and stores -/

/-- M1, M2, M3. -/
theorem test_stur :
    nextWith (runWord (withWords (withRegs [(1, dataAddr), (2, 0x1122334455667788)]) [(dataAddr + 4, 0xAAAAAAAA)]) 0xF8000022)
      (fun t => t.wordAt dataAddr == 0x55667788#32 && t.wordAt (dataAddr + 4) == 0xAAAAAAAA#32) = true ∧
    nextWith (runWord (withRegs [(1, dataAddr + 8), (2, 0xCAFEBABE)]) 0xF81F8022)
      (fun t => t.wordAt dataAddr == 0xCAFEBABE#32) = true ∧
    nextWith (runWord (withWords (withRegs [(1, dataAddr)]) [(dataAddr, 0x12345678)]) 0xF800003F)
      (fun t => t.wordAt dataAddr == 0#32) = true := by decide

/-- M4, M6. -/
theorem test_sturb :
    nextWith (runWord (withWords (withRegs [(1, dataAddr), (2, 0x1AB)]) [(dataAddr, 0x11223344)]) 0x38000022)
      (fun t => t.wordAt dataAddr == 0x112233AB#32) = true ∧
    faultAt (runWord (withWords (withRegs [(1, dataAddr)]) [(dataAddr, 0x11223344)]) 0x38001022) = some 0x400101#64 := by
  decide

/-- M5. -/
theorem test_sturh :
    nextWith (runWord (withWords (withRegs [(1, dataAddr), (2, 0x12345678)]) [(dataAddr, 0x11223344)]) 0x78000022)
      (fun t => t.wordAt dataAddr == 0x11225678#32) = true := by decide

/-- M7, M8, M9, M17. -/
theorem test_ldur :
    nextWith (runWord (withWords (withRegs [(1, dataAddr)]) [(dataAddr, 0x89ABCDEF), (dataAddr + 4, 0x01234567)]) 0xF8400023)
      (regFlags 3 0x0123456789ABCDEF false false) = true ∧
    nextWith (runWord (withWords (withRegs [(1, dataAddr - 255)]) [(dataAddr, 0x89ABCDEF), (dataAddr + 4, 0x01234567)])
      0xF84FF023) (regFlags 3 0x0123456789ABCDEF false false) = true ∧
    nextWith (runWord (withWords (withRegs [(1, dataAddr + 256)]) [(dataAddr, 0x89ABCDEF), (dataAddr + 4, 0x01234567)])
      0xF8500023) (regFlags 3 0x0123456789ABCDEF false false) = true ∧
    nextWith (runWord (withWords (withRegs [(1, dataAddr)]) [(dataAddr, 5)]) 0xF8400021) (regFlags 1 5 false false) = true := by
  decide

/-- M15, M16, M18. -/
theorem test_ldur_faults :
    faultAt (runWord (withRegs [(1, 0x10), (3, 9)]) 0xF8400023) = some 0x10#64 ∧
    faultAt (runWord (withRegs [(1, 0x4FFFFC), (3, 9)]) 0xF8400023) = some 0x500000#64 ∧
    faultAt (runWord (withRegs []) 0xF84003E3) = some 0#64 := by decide

/-- M11, M12, M19. -/
theorem test_ldurb :
    nextWith (runWord (withWords (withRegs [(1, dataAddr)]) [(dataAddr, 0xFFFFFF7F)]) 0x38400023)
      (regFlags 3 0x7F false false) = true ∧
    nextWith (runWord (withWords (withRegs [(1, dataAddr)]) [(dataAddr, 0x80)]) 0x38400023)
      (regFlags 3 0xFFFFFFFFFFFFFF80 false false) = true ∧
    faultAt (runWord (withRegs [(1, dataAddr + 2)]) 0x38400023) = some 0x400102#64 := by decide

/-- M12: the two other readings. -/
theorem test_widen8 : widen8 .sext32Zext64 0x80 = 0xFFFFFF80#64 ∧ widen8 .zext64 0x80 = 0x80#64 := by decide

/-- M13, M14. -/
theorem test_ldurh :
    nextWith (runWord (withWords (withRegs [(1, dataAddr)]) [(dataAddr, 0xFFFF7FFF)]) 0x78400023)
      (regFlags 3 0x7FFF false false) = true ∧
    nextWith (runWord (withWords (withRegs [(1, dataAddr)]) [(dataAddr, 0x8001)]) 0x78400023)
      (regFlags 3 0xFFFFFFFFFFFF8001 false false) = true := by decide

/-! ### One step: conditional branches, at the four flag states of table L2.3 -/

/-- Where the branch `w` goes under the flags (0,0), (1,0), (0,1), (1,1). -/
def targets (w : Nat) (p00 p10 p01 p11 : Addr) : Bool :=
  nextWith (runWord (withFlags State.reset false false) w) (jumped (withFlags State.reset false false) p00) &&
  nextWith (runWord (withFlags State.reset true false) w) (jumped (withFlags State.reset true false) p10) &&
  nextWith (runWord (withFlags State.reset false true) w) (jumped (withFlags State.reset false true) p01) &&
  nextWith (runWord (withFlags State.reset true true) w) (jumped (withFlags State.reset true true) p11)

theorem test_bEq : targets 0x54000080 0x400004 0x400010 0x400004 0x400010 = true := by decide
theorem test_bNe : targets 0x54000081 0x400010 0x400004 0x400010 0x400004 = true := by decide
theorem test_bGe : targets 0x5400008A 0x400010 0x400010 0x400004 0x400004 = true := by decide
theorem test_bLt : targets 0x5400008B 0x400004 0x400004 0x400010 0x400010 = true := by decide
theorem test_bGt : targets 0x5400008C 0x400010 0x400004 0x400004 0x400004 = true := by decide
theorem test_bLe : targets 0x5400008D 0x400004 0x400010 0x400010 0x400010 = true := by decide
theorem test_bUnrecognised : targets 0x5400008E 0x400004 0x400004 0x400004 0x400004 = true ∧
    nextWith (runWord State.reset 0x5400008E) (fun t => t.out.diag == [.unknownCond 14]) = true := by decide

/-- C4, C5: the ends of the range of imm19. -/
theorem test_bEq_range :
    nextWith (runWord (withFlags State.reset true false) 0x547FFFE0) (fun t => t.cur.pc == 0x4FFFFC#64) = true ∧
    nextWith (runWord (withFlags State.reset true false) 0x54800000) (fun t => t.cur.pc == 0x300000#64) = true := by decide

/-! ### One step: B, BR, HLT, unknown, faults of the fetch -/

/-- B2, B4, B5. -/
theorem test_b : nextWith (runWord State.reset 0x17FFFFFF) (fun t => t.cur.pc == 0x3FFFFC#64) = true ∧
    nextWith (runWord State.reset 0x15FFFFFF) (fun t => t.cur.pc == 0x83FFFFC#64) = true ∧
    nextWith (runWord State.reset 0x16000000) (fun t => t.cur.pc == 0xFFFFFFFFF8400000#64) = true := by decide

/-- B7, B8. -/
theorem test_br : nextWith (runWord (withRegs [(5, 0x400102)]) 0xD61F00A0) (fun t => t.cur.pc == 0x400102#64 &&
      faultAt (step t) == some 0x400102#64) = true ∧
    nextWith (runWord State.reset 0xD61F03E0) (fun t => t.cur.pc == 0#64) = true := by decide

/-- B9. -/
theorem test_hlt : nextWith (runWord (withFlags State.reset true true) 0xD4400000) (fun t =>
    jumped (withFlags State.reset true true) 0x400004 t && !t.running && t.out.runClr) = true := by decide

/-- B11. -/
theorem test_unknown : nextWith (runWord (withFlags (withRegs [(1, 7)]) true false) 0xFFFFFFFF) (fun t =>
    jumped (withFlags (withRegs [(1, 7)]) true false) 0x400004 t && t.running &&
      t.out.diag == [.unknownOpcode 0xFFFFFFFF]) = true := by decide

/-- F1, F2, F3. -/
theorem test_fetch_faults : faultAt (step (withPc State.reset 0x10)) = some 0x10#64 ∧
    faultAt (step (withPc State.reset 0x400002)) = some 0x400002#64 ∧
    faultAt (step (withPc State.reset 0x4FFFFE)) = some 0x4FFFFE#64 := by decide

/-- R81 to R95: the reset state, with nothing loaded, executes the unknown instruction of the word 0 (B12). -/
theorem test_reset_steps : nextWith (step State.reset) (fun t =>
    jumped State.reset 0x400004 t && t.running && t.out.diag == [.unknownOpcode 0]) = true := by decide

/-! ### Witnesses: concrete operands and states that meet the hypotheses of each statement that has some. Where a
statement has several clauses, each has its witness, at the ends of its range. -/

/-- The decoder answers the instruction `i` under `split`. -/
def decodesTo (split : ShiftSplit) (w : Word) (i : Instr) : Bool :=
  match decode defaultOpcodeTable split w with
  | .ok j => i == j
  | .error _ => false

/-- The decoder answers `UnknownOpcode` of the word itself under `split`. -/
def rejects (split : ShiftSplit) (w : Word) : Bool :=
  match decode defaultOpcodeTable split w with
  | .ok _ => false
  | .error r => r == .unknownOpcode w

theorem decode_of_decodesTo {split : ShiftSplit} {w : Word} {i : Instr} (h : decodesTo split w i = true) :
    decode defaultOpcodeTable split w = .ok i := by
  unfold decodesTo at h
  split at h
  · rename_i j hj
    rw [hj, eq_of_beq h]
  · exact absurd h Bool.false_ne_true

theorem witness_AddsWritesSumAndFlags : (0xAB020023#32).extractLsb' 21 11 = 0x558#11 ∧
    (0xAB1FFFFF#32).extractLsb' 21 11 = 0x558#11 ∧ decodesTo .byImms 0xAB1FFFFF#32 (.adds 31 31 31) = true := by decide

theorem witness_SubsWritesDifferenceAndFlags : (0xEB020023#32).extractLsb' 21 11 = 0x758#11 ∧
    (0xEB1FFFFF#32).extractLsb' 21 11 = 0x758#11 ∧ decodesTo .byImms 0xEB1FFFFF#32 (.subs 31 31 31) = true := by decide

/-- The two opcodes of each clause, at both ends of imm12. -/
theorem witness_AddisAddsZeroExtendedImmediate : (0xB1000023#32).extractLsb' 21 11 = 0x588#11 ∧
    (0xB13FFC23#32).extractLsb' 21 11 = 0x589#11 ∧ decodesTo .byOpcode 0xB1000023#32 (.addis 3 1 0) = true ∧
    (0xB1400423#32).extractLsb' 21 11 = 0x58A#11 ∧ (0xB17FFC23#32).extractLsb' 21 11 = 0x58B#11 ∧
    rejects .byOpcode 0xB1400423#32 = true ∧ rejects .byOpcode 0xB17FFC23#32 = true := by decide

theorem witness_SubisSubtractsShiftedImmediate : (0xF1000023#32).extractLsb' 21 11 = 0x788#11 ∧
    (0xF13FFC23#32).extractLsb' 21 11 = 0x789#11 ∧ (0xF1400423#32).extractLsb' 21 11 = 0x78A#11 ∧
    (0xF17FFC23#32).extractLsb' 21 11 = 0x78B#11 ∧ decodesTo .byOpcode 0xF17FFC23#32 (.subis 3 1 0xFFF 1) = true := by decide

theorem witness_AndsWritesConjunctionAndFlags : (0xEA020023#32).extractLsb' 21 11 = 0x750#11 := by decide
theorem witness_EorWritesExclusiveOrOnly : (0xCA020023#32).extractLsb' 21 11 = 0x650#11 := by decide
theorem witness_OrrWritesDisjunctionOnly : (0xAA020023#32).extractLsb' 21 11 = 0x550#11 := by decide

/-- Under `by_imms`, imms 62 and 0 under both opcodes. -/
theorem witness_LslShiftsLeftAndSetsFlags : (0xD37CEC23#32).extractLsb' 21 11 = 0x69B#11 ∧
    (0xD35FF823#32).extractLsb' 21 11 = 0x69A#11 ∧ (0xD35FF823#32).extractLsb' 10 6 = 62#6 ∧
    (0xD3610023#32).extractLsb' 21 11 = 0x69B#11 ∧ (0xD3610023#32).extractLsb' 10 6 = 0#6 ∧
    decodesTo .byImms 0xD35FF823#32 (.lsl 3 1 62) = true := by decide

/-- Under `by_opcode`, immr 31; under `by_imms`, immr 0 and 63. -/
theorem witness_LsrShiftsRightLogicallyOnly : (0xD35FFC23#32).extractLsb' 21 11 = 0x69A#11 ∧
    (0xD340FC23#32).extractLsb' 21 11 = 0x69A#11 ∧ (0xD340FC23#32).extractLsb' 10 6 = 63#6 ∧
    (0xD37FFC23#32).extractLsb' 21 11 = 0x69B#11 ∧ (0xD37FFC23#32).extractLsb' 10 6 = 63#6 ∧
    decodesTo .byImms 0xD37FFC23#32 (.lsr 3 1 63) = true := by decide

theorem witness_MovzWritesImmediateIgnoringHw : (0xD2800003#32).extractLsb' 21 11 = 0x694#11 ∧
    (0xD2A00023#32).extractLsb' 21 11 = 0x695#11 ∧ (0xD2C00023#32).extractLsb' 21 11 = 0x696#11 ∧
    (0xD2FFFFE3#32).extractLsb' 21 11 = 0x697#11 ∧ decodesTo .byOpcode 0xD2FFFFE3#32 (.movz 3 0xFFFF 3) = true := by decide

/-- One word for each of the six codes, at both ends of imm19 among them. -/
theorem witness_RecognisedConditionsBranchOnCurrentFlags :
    ([0x54000000#32, 0x547FFFE1#32, 0x5480000A#32, 0x54FFFFEB#32, 0x5400002C#32, 0x5400008D#32] : List Word).map
      (fun w => (w.extractLsb' 24 8, w.extractLsb' 0 4)) =
    [(0x54#8, 0x0#4), (0x54#8, 0x1#4), (0x54#8, 0xA#4), (0x54#8, 0xB#4), (0x54#8, 0xC#4), (0x54#8, 0xD#4)] := by decide

/-- One word for each of the ten codes. -/
theorem witness_UnrecognisedConditionFallsThrough :
    ([0x54000082#32, 0x54000083#32, 0x54000084#32, 0x54000085#32, 0x54000086#32, 0x54000087#32, 0x54000088#32,
      0x54000089#32, 0x5400008E#32, 0x5400008F#32] : List Word).map (fun w => (w.extractLsb' 24 8, w.extractLsb' 0 4)) =
    [(0x54#8, 0x2#4), (0x54#8, 0x3#4), (0x54#8, 0x4#4), (0x54#8, 0x5#4), (0x54#8, 0x6#4), (0x54#8, 0x7#4), (0x54#8, 0x8#4),
      (0x54#8, 0x9#4), (0x54#8, 0xE#4), (0x54#8, 0xF#4)] := by decide

/-- Both ends of the range without overflow: differences −2^63 and 2^63 − 1. -/
theorem witness_SignedConditionsDecideComparisonWithoutOverflow :
    (-2 ^ 63 ≤ (0x8000000000000000#64).toInt - (0#64).toInt ∧ (0x8000000000000000#64).toInt - (0#64).toInt < 2 ^ 63) ∧
    (-2 ^ 63 ≤ (0x7FFFFFFFFFFFFFFF#64).toInt - (0#64).toInt ∧ (0x7FFFFFFFFFFFFFFF#64).toInt - (0#64).toInt < 2 ^ 63) := by
  decide

/-- A state with canonical memory whose X1, plus the offset `imm9`, is `ea`. -/
def baseState (ea : Addr) (imm9 : BitVec 9) : State :=
  withWords (withRegs [(1, ea - memOffset imm9), (2, 0x1122334455667788)]) [(dataAddr, 0x89ABCDEF)]

/-- Memory is canonical, and the access at EA is admitted or not as `ok` says. -/
def accessCase (ea : Addr) (imm9 : BitVec 9) (ok : Bool) : Bool :=
  (baseState ea imm9).mem.wf && effectiveAddress (baseState ea imm9) 1 imm9 == ea &&
    admits (baseState ea imm9).cfg (effectiveAddress (baseState ea imm9) 1 imm9) == ok

/-- The first and last admitted word, and on either side of each, and a misaligned one; the offsets 255 and −256. -/
theorem accessCases : accessCase 0x400000 0 true = true ∧ accessCase 0x4FFFFC 0xFF true = true ∧
    accessCase 0x3FFFFC 0x100 false = true ∧ accessCase 0x500000 0 false = true ∧ accessCase 0x400101 1 false = true := by
  decide

theorem witness_SturStoresLowWordOnly : (0xF8000022#32).extractLsb' 21 11 = 0x7C0#11 ∧
    accessCase 0x400000 0 true = true ∧ accessCase 0x4FFFFC 0xFF true = true ∧ accessCase 0x500000 0 false = true :=
  ⟨by decide, accessCases.1, accessCases.2.1, accessCases.2.2.2.1⟩

theorem witness_SturbSplicesLowByte : (0x38000022#32).extractLsb' 21 11 = 0x1C0#11 ∧
    accessCase 0x400000 0 true = true ∧ accessCase 0x4FFFFC 0xFF true = true ∧ accessCase 0x400101 1 false = true :=
  ⟨by decide, accessCases.1, accessCases.2.1, accessCases.2.2.2.2⟩

theorem witness_SturhSplicesLowHalfword : (0x78000022#32).extractLsb' 21 11 = 0x3C0#11 ∧
    accessCase 0x400000 0 true = true ∧ accessCase 0x4FFFFC 0xFF true = true ∧ accessCase 0x3FFFFC 0x100 false = true :=
  ⟨by decide, accessCases.1, accessCases.2.1, accessCases.2.2.1⟩

/-- Both words admitted, at the last address where they are; the second alone not; the first not. -/
theorem witness_LdurLoadsTwoWords : (0xF8400023#32).extractLsb' 21 11 = 0x7C2#11 ∧
    (admits defaultConfig 0x4FFFF8 = true ∧ admits defaultConfig (0x4FFFF8 + 4) = true) ∧
    (admits defaultConfig 0x4FFFFC = true ∧ admits defaultConfig (0x4FFFFC + 4) = false) ∧
    admits defaultConfig 0x3FFFFC = false ∧
    effectiveAddress (baseState 0x4FFFF8 0xFF) 1 0xFF = 0x4FFFF8#64 ∧
    effectiveAddress (baseState 0x4FFFFC 0xFF) 1 0xFF = 0x4FFFFC#64 ∧
    effectiveAddress (baseState 0x3FFFFC 0x100) 1 0x100 = 0x3FFFFC#64 := by decide

theorem witness_LdurbLoadsWidenedByte : (0x38400023#32).extractLsb' 21 11 = 0x1C2#11 ∧
    accessCase 0x4FFFFC 0xFF true = true ∧ accessCase 0x500000 0 false = true :=
  ⟨by decide, accessCases.2.1, accessCases.2.2.2.1⟩

theorem witness_LdurhLoadsWidenedHalfword : (0x78400023#32).extractLsb' 21 11 = 0x3C2#11 ∧
    accessCase 0x4FFFFC 0xFF true = true ∧ accessCase 0x500000 0 false = true :=
  ⟨by decide, accessCases.2.1, accessCases.2.2.2.1⟩

theorem witness_BranchGoesToSignedOffset : (0x17FFFFFF#32).extractLsb' 26 6 = 0b000101#6 ∧
    (0x14000000#32).extractLsb' 26 6 = 0b000101#6 := by decide

theorem witness_BranchRegisterGoesToRegisterVerbatim : (0xD61F00A0#32).extractLsb' 21 11 = 0x6B0#11 := by decide

theorem witness_HltClearsRunningAndAdvances : (0xD4424680#32).extractLsb' 21 11 = 0x6A2#11 := by decide

/-- The state of B11. -/
def unknownState : State := withWords (withFlags (withRegs [(1, 7)]) true false) [(0x400000, 0xFFFFFFFF)]

theorem witness_UnknownWordOnlyAdvancesAndReports : admits unknownState.cfg unknownState.cur.pc = true ∧
    (fetchedWord unknownState).extractLsb' 24 8 ≠ 0x54#8 ∧
    unknownState.cfg.opcodeTable.find ((fetchedWord unknownState).extractLsb' 21 11) = none := by decide

theorem witness_ZeroRegisterReadsZeroAndDiscardsWrites :
    ((∃ t, exec (.adds 31 1 2) (withRegs [(1, -3), (2, 1)]) = .next t) ∧ destination (.adds 31 1 2) = some 31#5 ∧
      setsFlags (.adds 31 1 2) = true ∧ flagResult (.adds 31 1 2) (withRegs [(1, -3), (2, 1)]) = some (-2)) ∧
    exec (.stur 31 31 0) State.reset = .fault (.memFault 0) :=
  ⟨⟨exists_next (by decide), by decide, by decide, by decide⟩, fault_of_faultAt (by decide)⟩

theorem witness_InstructionWritesAtMostItsDestination :
    (∃ t, exec (.ldur 3 1 0) (baseState dataAddr 0) = .next t) ∧ destination (.ldur 3 1 0) ≠ some 4 ∧
    (∃ t, execUnknown 0 State.reset = .next t) ∧
    decode defaultOpcodeTable .byOpcode 0xF8400023#32 = .ok (.ldur 3 1 0) ∧ destination (.ldur 3 1 0) = some 3 :=
  ⟨exists_next (by decide), by decide, exists_next (by decide), decode_of_decodesTo (by decide), by decide⟩

/-- A flag setter, a keeper, the unknown instruction; and a completing and a faulting instruction that reads no flags. -/
theorem witness_FlagsWrittenBySixReadByConditionalBranch :
    ((∃ t, exec (.lsl 3 1 59) State.reset = .next t) ∧ setsFlags (.lsl 3 1 59) = true) ∧
    ((∃ t, exec (.lsr 3 1 4) State.reset = .next t) ∧ setsFlags (.lsr 3 1 4) = false) ∧
    (∃ t, execUnknown 0 State.reset = .next t) ∧ readsFlags (.lsl 3 1 59) = false ∧
    exec (.stur 2 1 0) State.reset = .fault (.memFault 0) ∧ readsFlags (.stur 2 1 0) = false :=
  ⟨⟨exists_next (by decide), by decide⟩, ⟨exists_next (by decide), by decide⟩, exists_next (by decide), by decide,
    fault_of_faultAt (by decide), by decide⟩

theorem witness_ReadsSeeOnlyTheCurrentRecord :
    ((∃ t, exec (.adds 1 1 1) (withRegs [(1, 0x40)]) = .next t) ∧ destination (.adds 1 1 1) = some 1 ∧
      setsFlags (.adds 1 1 1) = true) ∧
    exec (.ldur 3 1 0) State.reset = .fault (.memFault 0) :=
  ⟨⟨exists_next (by decide), by decide, by decide⟩, fault_of_faultAt (by decide)⟩

theorem witness_OnlyHltWritesRunning : (∃ t, exec .hlt State.reset = .next t) ∧
    (∃ t, exec (.b 2) State.reset = .next t) ∧ (∃ t, execUnknown 0 State.reset = .next t) ∧
    (∃ t, step State.reset = .next t) ∧ nextWith (step State.reset) (fun t => t.running) = true :=
  ⟨exists_next (by decide), exists_next (by decide), exists_next (by decide), exists_next (by decide), by decide⟩

theorem witness_OnlyBranchesOwnThePc : ((∃ t, exec .hlt State.reset = .next t) ∧ ownsPc .hlt = false) ∧
    (∃ t, execUnknown 0 State.reset = .next t) ∧ ownsPc (.bUnrecognised 0xE 4) = true :=
  ⟨⟨exists_next (by decide), by decide⟩, exists_next (by decide), by decide⟩

/-- A state about to execute the B of B2. -/
def branchState : State := withWords State.reset [(0x400000, 0x17FFFFFF)]

theorem fetchedInstr_branchState : fetchedInstr branchState = some (.b 0x3FFFFFF) := by decide

theorem witness_OnlyBrMisalignsThePc : (∃ t, step branchState = .next t) ∧ branchState.cur.pc.toNat % 4 = 0 ∧
    ∀ rn, fetchedInstr branchState ≠ some (.br rn) :=
  ⟨exists_next (by decide), by decide, fun rn h => by rw [fetchedInstr_branchState] at h; cases h⟩

theorem witness_MemoryChangesOnlyAtTheStoredWord : (baseState dataAddr 0).mem.wf = true ∧
    ((∃ t, exec (.sturb 2 1 0) (baseState dataAddr 0) = .next t) ∧
      storeAddress (.sturb 2 1 0) (baseState dataAddr 0) = some dataAddr) ∧
    ((∃ t, exec (.ldur 3 1 0) (baseState dataAddr 0) = .next t) ∧
      storeAddress (.ldur 3 1 0) (baseState dataAddr 0) = none) :=
  ⟨by decide, ⟨exists_next (by decide), by decide⟩, exists_next (by decide), by decide⟩

/-- The default parameters with the other byte order. -/
def bigConfig : Config := { defaultConfig with endian := .big }

/-- The default parameters under `ALIGN_POLICY = passthrough`. -/
def passConfig : Config := { defaultConfig with alignPolicy := .passthrough }

/-- The last admitted word under each byte order and policy, and the first that is not. -/
theorem witness_MemReadAssemblesAdmittedWord :
    (Admissible State.reset.cfg 0x4FFFFC ∧ State.reset.cfg.endian = .little) ∧
    (Admissible (State.boot bigConfig defaultEntryPc []).cfg 0x400000 ∧
      (State.boot bigConfig defaultEntryPc []).cfg.endian = .big) ∧
    Admissible passConfig 0x4FFFFB ∧ ¬Admissible State.reset.cfg 0x4FFFFD ∧ ¬Admissible passConfig 0x4FFFFD :=
  ⟨⟨(admits_iff _ _).1 (by decide), by decide⟩, ⟨(admits_iff _ _).1 (by decide), by decide⟩,
    (admits_iff _ _).1 (by decide), mt (admits_iff _ _).2 (by decide), mt (admits_iff _ _).2 (by decide)⟩

theorem witness_MemWriteStoresFourBytes : State.reset.mem.wf = true ∧ Admissible State.reset.cfg 0x4FFFFC ∧
    ¬Admissible State.reset.cfg 0x500000 :=
  ⟨by decide, (admits_iff _ _).1 (by decide), mt (admits_iff _ _).2 (by decide)⟩

/-- The same word at the same place in two sessions of different byte order, which therefore hold it differently. -/
theorem same_after_store {s s' : State} (h : SameUpToEndian s s') {a : Addr} {v : Word} (ha : a.toNat % 4 = 0) :
    SameUpToEndian (s.storeWord a v) (s'.storeWord a v) where
  cur := h.cur
  nxt := h.nxt
  running := h.running
  out := h.out
  cfg := h.cfg
  policy := h.policy
  memWf := Memory.wf_writeWord h.memWf
  memWf' := Memory.wf_writeWord h.memWf'
  words := fun b hb => by
    by_cases hab : b = a
    · subst hab
      rw [State.wordAt_storeWord h.memWf, State.wordAt_storeWord h.memWf']
    · have hn : ∀ i j : Nat, i < 4 → j < 4 → b + BitVec.ofNat 64 i ≠ a + BitVec.ofNat 64 j := by
        intro i j hi hj hij
        apply hab
        have hij' := congrArg BitVec.toNat hij
        simp only [BitVec.toNat_add, BitVec.toNat_ofNat] at hij'
        have := b.isLt
        have := a.isLt
        apply BitVec.eq_of_toNat_eq
        omega
      have key : ∀ {u : State}, u.mem.wf = true → (u.storeWord a v).wordAt b = u.wordAt b := by
        intro u hu
        have byte : ∀ i : Nat, i < 4 → (u.storeWord a v).byteAt (b + BitVec.ofNat 64 i) = u.byteAt (b + BitVec.ofNat 64 i) :=
          fun i hi => State.byteAt_storeWord_of_ne hu (by simpa using hn i 0 hi (by omega)) (hn i 1 hi (by omega))
            (hn i 2 hi (by omega)) (hn i 3 hi (by omega))
        have b0 : (u.storeWord a v).byteAt b = u.byteAt b := by simpa using byte 0 (by omega)
        have b1 : (u.storeWord a v).byteAt (b + 1#64) = u.byteAt (b + 1#64) := byte 1 (by omega)
        have b2 : (u.storeWord a v).byteAt (b + 2#64) = u.byteAt (b + 2#64) := byte 2 (by omega)
        have b3 : (u.storeWord a v).byteAt (b + 3#64) = u.byteAt (b + 3#64) := byte 3 (by omega)
        unfold State.wordAt
        rw [b0, b1, b2, b3]
        rfl
      rw [key h.memWf, key h.memWf', h.words b hb]

/-- The reset states of two sessions that differ only in `ENDIAN`. -/
theorem same_reset : SameUpToEndian State.reset (State.boot bigConfig defaultEntryPc []) where
  cur := rfl
  nxt := rfl
  running := rfl
  out := rfl
  cfg := rfl
  policy := rfl
  memWf := rfl
  memWf' := rfl
  words := fun _ _ => rfl

/-- A step that completes (B), one that faults (LDUR at 0), and, after the run has ended, none. -/
theorem witness_EndianUnobservableWhenAligned :
    (SameUpToEndian branchState ((State.boot bigConfig defaultEntryPc []).storeWord 0x400000 0x17FFFFFF) ∧
      ∃ t, step branchState = .next t) ∧
    (SameUpToEndian (State.reset.storeWord 0x400000 0xF84003E3)
        ((State.boot bigConfig defaultEntryPc []).storeWord 0x400000 0xF84003E3) ∧
      step (State.reset.storeWord 0x400000 0xF84003E3) = .fault (.memFault 0)) ∧
    SameUpToEndian { State.reset with running := false }
      { State.boot bigConfig defaultEntryPc [] with running := false } ∧
    step { State.reset with running := false } = .refused .runEnded :=
  ⟨⟨same_after_store same_reset (by decide), exists_next (by decide)⟩,
    ⟨same_after_store same_reset (by decide), fault_of_faultAt (by decide)⟩,
    ⟨rfl, rfl, rfl, rfl, rfl, rfl, rfl, rfl, fun _ _ => rfl⟩, rfl⟩

/-- STUR X2, [X1] at 0x400000 with X1 = 0x400004 and X2 the HLT word. -/
def storeNextState : State := withWords (withRegs [(1, 0x400004), (2, 0xD4400000)]) [(0x400000, 0xF8000022)]

theorem witness_StoreIsSeenByTheNextFetch : storeNextState.mem.wf = true ∧ (∃ t, step storeNextState = .next t) ∧
    fetchedInstr storeNextState = some (.stur 2 1 0) ∧
    effectiveAddress storeNextState 1 0 = storeNextState.cur.pc + 4#64 :=
  ⟨by decide, exists_next (by decide), by decide, by decide⟩

theorem witness_StepRunsTheDecodedInstruction : branchState.live = true ∧
    admits branchState.cfg branchState.cur.pc = true ∧
    decode branchState.cfg.opcodeTable branchState.cfg.shiftSplit (branchState.wordAt branchState.cur.pc) =
      .ok (.b 0x3FFFFFF) :=
  ⟨by decide, by decide, decode_of_decodesTo (split := .byOpcode) (by decide)⟩

/-- A STURB with the fetch, a read and a write: the three accesses that are the most a cycle makes. -/
def threeAccessState : State := withWords (withRegs [(1, dataAddr)]) [(0x400000, 0x38000022)]

theorem witness_CycleAccessesInOrder : (∃ t, step threeAccessState = .next t) ∧
    (cycleAccesses threeAccessState).length = 3 := ⟨exists_next (by decide), by decide⟩

/-- A state about to execute B.AL of A64. -/
def unrecognisedState : State := withWords State.reset [(0x400000, 0x5400004E)]

theorem witness_EveryCompletedCycleEmitsOneEvent :
    ((∃ t, step unknownState = .next t) ∧ fetchedInstr unknownState = none) ∧
    ((∃ t, step unrecognisedState = .next t) ∧ fetchedInstr unrecognisedState = some (.bUnrecognised 0xE 2)) ∧
    ((∃ t, step branchState = .next t) ∧ fetchedInstr branchState = some (.b 0x3FFFFFF) ∧
      ∀ cond imm19, Instr.b 0x3FFFFFF ≠ .bUnrecognised cond imm19) :=
  ⟨⟨exists_next (by decide), by decide⟩, ⟨exists_next (by decide), by decide⟩, exists_next (by decide),
    fetchedInstr_branchState, fun _ _ => Instr.noConfusion⟩

/-- A live session that completes, one whose fetch faults, and one whose second data read does (M16). -/
theorem witness_StepFaultsAtFirstInadmissibleAccess : branchState.live = true ∧
    ((withPc State.reset 0x10).live = true ∧ step (withPc State.reset 0x10) = .fault (.memFault 0x10)) ∧
    ((withWords (withRegs [(1, 0x4FFFFC)]) [(0x400000, 0xF8400023)]).live = true ∧
      step (withWords (withRegs [(1, 0x4FFFFC)]) [(0x400000, 0xF8400023)]) = .fault (.memFault 0x500000)) ∧
    (∃ t, step branchState = .next t) ∧ FaultFree branchState := by
  obtain ⟨t, ht⟩ : ∃ t, step branchState = .next t := exists_next (by decide)
  refine ⟨by decide, ⟨by decide, fault_of_faultAt (by decide)⟩, ⟨by decide, fault_of_faultAt (by decide)⟩, ⟨t, ht⟩, ?_⟩
  intro f hf
  rw [ht] at hf
  cases hf

theorem witness_InstructionsOnlyStopAtInadmissibleAccess :
    exec (.stur 2 1 0) State.reset = .fault (.memFault 0) ∧
    ∀ b ∈ dataAccesses (.stur 2 1 0) (baseState dataAddr 0), admits (baseState dataAddr 0).cfg b.addr = true :=
  ⟨fault_of_faultAt (by decide), by decide⟩

/-- A list with one opcode twice is no function; and a run that has ended. -/
theorem witness_EndedRunTakesNoStep :
    ({ State.reset with cfg := { defaultConfig with opcodeTable := [(0#11, .b), (0#11, .hlt)] } } : State).cfg.opcodeTable.isMap
      = false ∧
    State.reset.cfg.opcodeTable.isMap = true ∧ ({ State.reset with running := false } : State).running = false := by decide

/-- A state about to execute HLT. -/
def haltState : State := withWords State.reset [(0x400000, 0xD4400000)]

theorem witness_HltEndsTheRun : (∃ t, step haltState = .next t) ∧ fetchedInstr haltState = some .hlt :=
  ⟨exists_next (by decide), by decide⟩

/-- The invariant at a state with a STUR to execute and words in memory, not only at reset. -/
theorem witness_StepKeepsInvariant : ({ storeNextState with nxt := storeNextState.cur } : State).Inv ∧
    ∃ t, step { storeNextState with nxt := storeNextState.cur } = .next t :=
  ⟨⟨rfl, by decide, by decide, by unfold Memory.within; decide, by decide⟩, exists_next (by decide)⟩

theorem witness_DecodeOfEncodeIsIdentity : Instr.wellFormed .byOpcode (.subis 31 30 0xFFF 1) = true ∧
    Instr.wellFormed .byOpcode (.lsl 31 30 63) = true ∧ Instr.wellFormed .byOpcode (.lsr 31 30 31) = true ∧
    Instr.wellFormed .byImms (.lsl 31 30 62) = true ∧ Instr.wellFormed .byImms (.lsr 31 30 63) = true ∧
    Instr.wellFormed .byOpcode (.bUnrecognised 0xF 0x7FFFF) = true := by decide

/-- A word with every ignored bit set, under each split. -/
theorem witness_EncodeOfDecodeAgreesOffIgnoredBits :
    decode defaultOpcodeTable .byOpcode 0xAB02FC23#32 = .ok (.adds 3 1 2) ∧
    decode defaultOpcodeTable .byImms 0xD35FF823#32 = .ok (.lsl 3 1 62) :=
  ⟨decode_of_decodesTo (by decide), decode_of_decodesTo (by decide)⟩

theorem witness_IgnoredBitsDoNotChangeTheInstruction :
    decode defaultOpcodeTable .byOpcode 0xD4424680#32 = .ok .hlt ∧ ignoredBits .byOpcode .hlt = 0x1FFFFF#32 :=
  ⟨decode_of_decodesTo (by decide), rfl⟩

/-- A B.cond word, an unknown one, a table word, and under `by_imms` a shift word of each opcode. -/
theorem witness_DispatchIsHighByteThenOpcode : fieldHb 0x5400008E#32 = 0x54#8 ∧
    (fieldHb 0xFFFFFFFF#32 ≠ 0x54#8 ∧ defaultOpcodeTable.find (fieldOp11 0xFFFFFFFF#32) = none) ∧
    (fieldHb 0xAB020023#32 ≠ 0x54#8 ∧ defaultOpcodeTable.find (fieldOp11 0xAB020023#32) = some .adds ∧
      fieldOp11 0xAB020023#32 ∉ [0x69A#11, 0x69B#11]) ∧
    (defaultOpcodeTable.find (fieldOp11 0xD3585C23#32) = some .lsr ∧ fieldOp11 0xD3585C23#32 = 0x69A#11) ∧
    (defaultOpcodeTable.find (fieldOp11 0xD37CFC23#32) = some .lsl ∧ fieldOp11 0xD37CFC23#32 = 0x69B#11 ∧
      fieldImms 0xD37CFC23#32 = 63#6) := by decide

/-- Both ends of each range, as R104's notes give the outcome. -/
theorem witness_AssembledShiftsExecuteAsWritten :
    decodesTo .byOpcode (assembledLsl 3 1 1) (.lsl 3 1 62) = true ∧
    decodesTo .byOpcode (assembledLsl 3 1 32) (.lsl 3 1 31) = true ∧
    decodesTo .byOpcode (assembledLsl 3 1 33) (.lsr 3 1 31) = true ∧
    decodesTo .byOpcode (assembledLsl 3 1 63) (.lsr 3 1 1) = true ∧
    decodesTo .byOpcode (assembledLsr 3 1 0) (.lsr 3 1 0) = true ∧
    decodesTo .byOpcode (assembledLsr 3 1 31) (.lsr 3 1 31) = true ∧
    decodesTo .byOpcode (assembledLsr 3 1 32) (.lsl 3 1 63) = true ∧
    decodesTo .byOpcode (assembledLsr 3 1 63) (.lsl 3 1 63) = true ∧
    decodesTo .byImms (assembledLsl 3 1 1) (.lsl 3 1 62) = true ∧ decodesTo .byImms (assembledLsl 3 1 63) (.lsl 3 1 0) = true ∧
    decodesTo .byImms (assembledLsr 3 1 0) (.lsr 3 1 0) = true ∧ decodesTo .byImms (assembledLsr 3 1 63) (.lsr 3 1 63) = true := by
  decide

end Sys2Proof.Tests
end

section
/-! Family `10_state.md`: the zero register (R21), who writes and reads the flags (R27, R28), and the state at session start
(R37 to R40). Two facts carry it. `exec_nxtEffect` says once what a completed instruction leaves in the next record;
`exec_withCur` says that an instruction cannot tell two current records apart that agree on what it reads. -/

namespace Sys2Proof.Machine

/-! ### What a completed instruction leaves in the next record -/

/-- The next record that `i` may leave when it completes from `s`, by what `i` writes there beside the PC: a register and
both flags, a register alone, or neither (R23, R27). -/
inductive NxtEffect (i : Instr) (s : State) : Proc → Prop where
  | setsRegAndFlags {rd : RegIndex} {r : DWord} (pc : Addr) (hdest : destination i = some rd)
      (hres : flagResult i s = some r) :
      NxtEffect i s { s.nxt.setX rd r with pc := pc, z := flagZero r, n := flagNegative r }
  | setsReg {rd : RegIndex} (v : DWord) (pc : Addr) (hdest : destination i = some rd) (hres : flagResult i s = none) :
      NxtEffect i s { s.nxt.setX rd v with pc := pc }
  | setsPcOnly (pc : Addr) (hdest : destination i = none) (hres : flagResult i s = none) :
      NxtEffect i s { s.nxt with pc := pc }

theorem exec_nxtEffect {i : Instr} {s t : State} (h : exec i s = .next t) : NxtEffect i s t.nxt := by
  cases i with
  | adds | subs | addis | subis | ands | lsl =>
    obtain rfl := Host.Outcome.next.inj h
    exact .setsRegAndFlags _ rfl rfl
  | eor | orr | lsr | movz =>
    obtain rfl := Host.Outcome.next.inj h
    exact .setsReg _ _ rfl rfl
  | ldur rt rn imm9 =>
    rw [exec_ldur] at h
    split_ifs at h
    obtain rfl := Host.Outcome.next.inj h
    exact .setsReg _ _ rfl rfl
  | ldurb | ldurh =>
    simp only [exec_ldurb, exec_ldurh, loadNarrow_next] at h
    obtain ⟨-, rfl⟩ := h
    exact .setsReg _ _ rfl rfl
  | stur rt rn imm9 =>
    rw [exec_stur] at h
    split_ifs at h
    obtain rfl := Host.Outcome.next.inj h
    exact .setsPcOnly _ rfl rfl
  | sturb | sturh =>
    simp only [exec_sturb, exec_sturh, storeSpliced_next] at h
    obtain ⟨-, rfl⟩ := h
    exact .setsPcOnly _ rfl rfl
  | b | br | hlt | bEq | bNe | bGe | bLt | bGt | bLe | bUnrecognised =>
    obtain rfl := Host.Outcome.next.inj h
    exact .setsPcOnly _ rfl rfl

theorem setsFlags_of_flagResult_some {i : Instr} {s : State} {r : DWord} (h : flagResult i s = some r) :
    setsFlags i = true := by
  rw [← flagResult_isSome i s, h]; rfl

theorem setsFlags_of_flagResult_none {i : Instr} {s : State} (h : flagResult i s = none) : setsFlags i = false := by
  rw [← flagResult_isSome i s, h]; rfl

theorem NxtEffect.regs_of_destination_xzr {i : Instr} {s : State} {p : Proc} (h : NxtEffect i s p)
    (hdest : destination i = some xzr) : p.regs = s.nxt.regs := by
  cases h with
  | setsRegAndFlags pc hrd _ | setsReg _ pc hrd _ =>
    obtain rfl := Option.some.inj (hrd.symm.trans hdest)
    simp
  | setsPcOnly pc _ _ => rfl

theorem NxtEffect.keeps_flags {i : Instr} {s : State} {p : Proc} (h : NxtEffect i s p) (hset : setsFlags i = false) :
    p.z = s.nxt.z ∧ p.n = s.nxt.n := by
  cases h with
  | setsRegAndFlags pc _ hres => simp [setsFlags_of_flagResult_some hres] at hset
  | setsReg v pc _ _ => simp
  | setsPcOnly pc _ _ => exact ⟨rfl, rfl⟩

theorem NxtEffect.flags_from_flagResult {i : Instr} {s : State} {p : Proc} (h : NxtEffect i s p)
    (hset : setsFlags i = true) :
    ∃ r, flagResult i s = some r ∧ (p.z = true ↔ r = 0#64) ∧ (p.n = true ↔ r.toInt < 0) := by
  cases h with
  | setsRegAndFlags pc _ hres => exact ⟨_, hres, flagZero_iff _, flagNegative_iff _⟩
  | setsReg _ pc _ hres | setsPcOnly pc _ hres => simp [setsFlags_of_flagResult_none hres] at hset

/-- An instruction whose destination is the zero register writes no slot of the register file (R21). -/
theorem exec_regs_of_destination_xzr {i : Instr} {s t : State} (h : exec i s = .next t)
    (hdest : destination i = some xzr) : t.nxt.regs = s.nxt.regs :=
  (exec_nxtEffect h).regs_of_destination_xzr hdest

/-- An instruction outside the six leaves both flags (R27). -/
theorem exec_keepsFlags {i : Instr} {s t : State} (h : exec i s = .next t) (hset : setsFlags i = false) :
    KeepsFlags s t :=
  (exec_nxtEffect h).keeps_flags hset

/-- Each of the six writes both flags from the result it computes, destination 31 included (R28, R132). -/
theorem exec_setsFlagsFrom_flagResult {i : Instr} {s t : State} (h : exec i s = .next t) (hset : setsFlags i = true) :
    ∃ r, flagResult i s = some r ∧ SetsFlagsFrom t r :=
  (exec_nxtEffect h).flags_from_flagResult hset

theorem execUnknown_keepsFlags {w : Word} {s t : State} (h : execUnknown w s = .next t) : KeepsFlags s t := by
  obtain rfl := Host.Outcome.next.inj h
  exact ⟨rfl, rfl⟩

/-! ### A session with another current record -/

/-- `s` with `p` as its current record. -/
def State.withCur (s : State) (p : Proc) : State := { s with cur := p }

/-- The outcome with `p` as the current record of the state it goes on to. -/
def resultWithCur (p : Proc) : Result → Result
  | .next t => .next (t.withCur p)
  | .fault f => .fault f
  | .refused q => .refused q

section
variable (s : State) (p : Proc)

@[simp] theorem State.withCur_cur : (s.withCur p).cur = p := rfl

@[simp] theorem State.withCur_cfg : (s.withCur p).cfg = s.cfg := rfl

@[simp] theorem State.withCur_x (i : RegIndex) : (s.withCur p).x i = p.x i := rfl

@[simp] theorem State.withCur_wordAt (a : Addr) : (s.withCur p).wordAt a = s.wordAt a := rfl

@[simp] theorem State.withCur_self : s.withCur s.cur = s := rfl

@[simp] theorem State.setX_withCur (i : RegIndex) (v : DWord) : (s.withCur p).setX i v = (s.setX i v).withCur p := rfl

@[simp] theorem State.setFlags_withCur (r : DWord) : (s.withCur p).setFlags r = (s.setFlags r).withCur p := rfl

@[simp] theorem State.setPc_withCur (a : Addr) : (s.withCur p).setPc a = (s.setPc a).withCur p := rfl

@[simp] theorem State.clearRunning_withCur : (s.withCur p).clearRunning = s.clearRunning.withCur p := rfl

@[simp] theorem State.emit_withCur (e : Diag) : (s.withCur p).emit e = (s.emit e).withCur p := rfl

@[simp] theorem State.logAccess_withCur (b : BusAccess) : (s.withCur p).logAccess b = (s.logAccess b).withCur p := rfl

@[simp] theorem State.storeWord_withCur (a : Addr) (v : Word) :
    (s.withCur p).storeWord a v = (s.storeWord a v).withCur p := rfl

@[simp] theorem resultWithCur_next : resultWithCur p (.next s) = .next (s.withCur p) := rfl

@[simp] theorem resultWithCur_fault (f : Fault) : resultWithCur p (.fault f) = .fault f := rfl

end

/-! ### An instruction sees of the current record only what it reads -/

/-- The record `p` agrees with the current record of `s` on all that `i` can read: the registers as index 0 to 31 reads
them, the PC, and, for B.cond with a recognised code, the flags (R21, R25, R171). -/
structure AgreesOnReads (i : Instr) (s : State) (p : Proc) : Prop where
  x : ∀ j, p.x j = s.x j
  pc : p.pc = s.cur.pc
  flags : readsFlags i = true → p.z = s.cur.z ∧ p.n = s.cur.n

theorem effectiveAddress_withCur {s : State} {p : Proc} (hx : ∀ j, p.x j = s.x j) (rn : RegIndex) (imm9 : BitVec 9) :
    effectiveAddress (s.withCur p) rn imm9 = effectiveAddress s rn imm9 := by
  simp [effectiveAddress, hx]

theorem storeSpliced_withCur {s : State} {p : Proc} (hpc : p.pc = s.cur.pc) (id : TableInstr) (ea : Addr)
    (f : Word → Word) : storeSpliced id ea f (s.withCur p) = resultWithCur p (storeSpliced id ea f s) := by
  simp [storeSpliced_eq, apply_ite (resultWithCur p), State.advancePc, hpc]

theorem loadNarrow_withCur {s : State} {p : Proc} (hpc : p.pc = s.cur.pc) (id : TableInstr) (rt : RegIndex) (ea : Addr)
    (f : Word → DWord) : loadNarrow id rt ea f (s.withCur p) = resultWithCur p (loadNarrow id rt ea f s) := by
  simp [loadNarrow_eq, apply_ite (resultWithCur p), State.advancePc, hpc]

/-- Putting such a record in place of the current one changes nothing else of the outcome. -/
theorem exec_withCur {i : Instr} {s : State} {p : Proc} (h : AgreesOnReads i s p) :
    exec i (s.withCur p) = resultWithCur p (exec i s) := by
  obtain ⟨hx, hpc, hflags⟩ := h
  cases i with
  | adds | subs | addis | subis | ands | lsl =>
    simp [exec_adds, exec_subs, exec_addis, exec_subis, exec_ands, exec_lsl, State.advancePc, hx, hpc]
  | eor | orr | lsr | movz =>
    simp [exec_eor, exec_orr, exec_lsr, exec_movz, State.advancePc, hx, hpc]
  | stur rt rn imm9 =>
    simp [exec_stur, effectiveAddress_withCur hx, apply_ite (resultWithCur p), State.advancePc, hx, hpc]
  | sturb | sturh =>
    simp only [exec_sturb, exec_sturh, State.withCur_x, hx, effectiveAddress_withCur hx, storeSpliced_withCur hpc]
  | ldur rt rn imm9 =>
    simp [exec_ldur, effectiveAddress_withCur hx, apply_ite (resultWithCur p), State.advancePc, hpc]
  | ldurb | ldurh =>
    simp only [exec_ldurb, exec_ldurh, State.withCur_cfg, effectiveAddress_withCur hx, loadNarrow_withCur hpc]
  | b | br | hlt | bUnrecognised =>
    simp [exec_b, exec_br, exec_hlt, exec_bUnrecognised, State.advancePc, hx, hpc]
  | bEq | bNe | bGe | bLt | bGt | bLe =>
    obtain ⟨hz, hn⟩ := hflags rfl
    simp [exec_bEq, exec_bNe, exec_bGe, exec_bLt, exec_bGt, exec_bLe, hpc, hz, hn]

/-- An instruction leaves the current record (R33): it is `exec_withCur` at the current record itself. -/
theorem exec_cur {i : Instr} {s t : State} (h : exec i s = .next t) : t.cur = s.cur := by
  have hself : exec i (s.withCur s.cur) = resultWithCur s.cur (exec i s) :=
    exec_withCur ⟨fun _ => rfl, rfl, fun _ => ⟨rfl, rfl⟩⟩
  rw [State.withCur_self, h, resultWithCur_next] at hself
  have ht : t = t.withCur s.cur := Host.Outcome.next.inj hself
  rw [ht, State.withCur_cur]

theorem exec_withCur_next {i : Instr} {s t : State} {p : Proc} (h : AgreesOnReads i s p) (ht : exec i s = .next t) :
    exec i (s.withCur p) = .next (t.withCur p) := by
  rw [exec_withCur h, ht, resultWithCur_next]

theorem exec_withCur_fault {i : Instr} {s : State} {f : Fault} {p : Proc} (h : AgreesOnReads i s p)
    (hf : exec i s = .fault f) : exec i (s.withCur p) = .fault f := by
  rw [exec_withCur h, hf, resultWithCur_fault]

/-! ### The two changes of record that no read shows -/

/-- No read sees what slot 31 holds (R21). -/
theorem Proc.x_set_slot31 (p : Proc) (v : DWord) (j : RegIndex) :
    ({ p with regs := p.regs.set 31 v } : Proc).x j = p.x j := by
  by_cases hj : j = xzr
  · subst hj; simp
  · have hne : 31 ≠ j.toNat := fun e => hj (BitVec.eq_of_toNat_eq e.symm)
    simp only [Proc.x, if_neg hj]
    exact Vector.getElem_set_ne _ _ hne

theorem agreesOnReads_set_slot31 (i : Instr) (s : State) (v : DWord) :
    AgreesOnReads i s { s.cur with regs := s.cur.regs.set 31 v } :=
  ⟨Proc.x_set_slot31 s.cur v, rfl, fun _ => ⟨rfl, rfl⟩⟩

theorem agreesOnReads_set_flags {i : Instr} (h : readsFlags i = false) (s : State) (z n : Bool) :
    AgreesOnReads i s { s.cur with z := z, n := n } :=
  ⟨fun _ => rfl, rfl, fun h' => by simp [h] at h'⟩

/-! ### Session start -/

@[simp] theorem Proc.initial_x (pc : Addr) (i : RegIndex) : (Proc.initial pc).x i = 0#64 := by
  simp [Proc.x, Proc.initial]

/-! ### The statements -/

/-- Settles O27: the laws of `Proc.x` and `Proc.setX`, the effect on the next record, and that a record with another slot 31
agrees on every read. -/
theorem zeroRegisterReadsZeroAndDiscardsWrites : Obligations.ZeroRegisterReadsZeroAndDiscardsWrites := by
  refine ⟨fun p v => Proc.x_xzr _, Proc.x_setX, Proc.setX_xzr, fun i s t h hdest => ?_, fun i s v => ⟨fun t h => ?_, ?_⟩⟩
  · exact ⟨exec_regs_of_destination_xzr h hdest, exec_setsFlagsFrom_flagResult h⟩
  · rw [exec_cur h]
    exact exec_withCur_next (agreesOnReads_set_slot31 i s v) h
  · exact fun f => exec_withCur_fault (agreesOnReads_set_slot31 i s v)

/-- Settles O29: the effect on the next record, and that a record with other flags agrees on every read but B.cond's. -/
theorem flagsWrittenBySixReadByConditionalBranch : Obligations.FlagsWrittenBySixReadByConditionalBranch := by
  refine ⟨fun i s t h => ⟨exec_keepsFlags h, exec_setsFlagsFrom_flagResult h⟩, fun w s t => execUnknown_keepsFlags,
    fun i s z n hread => ⟨fun t h => ?_, ?_⟩⟩
  · rw [exec_cur h]
    exact exec_withCur_next (agreesOnReads_set_flags hread s z n) h
  · exact fun f => exec_withCur_fault (agreesOnReads_set_flags hread s z n)

/-- Settles O46: every slot of the initial record is 0, and the other fields are `State.boot`'s own. -/
theorem bootStateIsZeroButEntryPc : Obligations.BootStateIsZeroButEntryPc :=
  fun _ entryPc _ => ⟨Proc.initial_x entryPc, rfl, rfl, rfl, rfl, rfl, rfl⟩

end Sys2Proof.Machine
end

section
/-! Family `20_memory.md`: the two memory primitives (R53, R54) and the accesses of a cycle in order (R58). The primitives
come from the laws of admission and of stored bytes. For the cycle, `exec_bus` says once which accesses a completed
instruction adds to the bus, and `cycleAccesses_cases` which shapes the list of a cycle can have. -/

namespace Sys2Proof.Machine

/-! ### Bytes and words in each byte order (R56) -/

theorem State.wordAt_of_little {s : State} (h : s.cfg.endian = .little) (a : Addr) :
    s.wordAt a = s.byteAt (a + 3#64) ++ s.byteAt (a + 2#64) ++ s.byteAt (a + 1#64) ++ s.byteAt a := by
  simp only [State.wordAt, h, wordOfBytes]

theorem State.wordAt_of_big {s : State} (h : s.cfg.endian = .big) (a : Addr) :
    s.wordAt a = s.byteAt a ++ s.byteAt (a + 1#64) ++ s.byteAt (a + 2#64) ++ s.byteAt (a + 3#64) := by
  simp only [State.wordAt, h, wordOfBytes]

theorem byteOfWord_eq_ite (e : Endian) (v : Word) (k : Nat) :
    byteOfWord e v k = if e = .little then v.extractLsb' (8 * k) 8 else v.extractLsb' (8 * (3 - k)) 8 := by
  cases e <;> rfl

/-- The four addresses of a word differ, so each byte of a stored word is read back at its own (R54). -/
theorem State.bytesAt_storeWord {s : State} (h : s.mem.wf = true) (a : Addr) (v : Word) :
    (s.storeWord a v).byteAt a = byteOfWord s.cfg.endian v 0 ∧
      (s.storeWord a v).byteAt (a + 1#64) = byteOfWord s.cfg.endian v 1 ∧
      (s.storeWord a v).byteAt (a + 2#64) = byteOfWord s.cfg.endian v 2 ∧
      (s.storeWord a v).byteAt (a + 3#64) = byteOfWord s.cfg.endian v 3 := by
  simp [State.byteAt_storeWord h]

/-! ### The primitives under the admission of R52 and R55 -/

theorem admits_eq_false_iff (cfg : Config) (a : Addr) : admits cfg a = false ↔ ¬Admissible cfg a := by
  rw [← admits_iff, Bool.not_eq_true]

theorem State.withRead_of_admissible {s : State} {a : Addr} (h : Admissible s.cfg a) (k : Word → State → Result) :
    s.withRead a k = k (s.wordAt a) (s.logAccess (.read a (s.wordAt a))) :=
  State.withRead_of_admits ((admits_iff _ _).mpr h) k

theorem State.withRead_of_not_admissible {s : State} {a : Addr} (h : ¬Admissible s.cfg a) (k : Word → State → Result) :
    s.withRead a k = .fault (.memFault a) :=
  State.withRead_of_not ((admits_eq_false_iff _ _).mpr h) k

theorem State.withWrite_of_admissible {s : State} {a : Addr} (h : Admissible s.cfg a) (v : Word) (k : State → Result) :
    s.withWrite a v k = k ((s.storeWord a v).logAccess (.write a v)) :=
  State.withWrite_of_admits ((admits_iff _ _).mpr h) k

theorem State.withWrite_of_not_admissible {s : State} {a : Addr} (h : ¬Admissible s.cfg a) (v : Word)
    (k : State → Result) : s.withWrite a v k = .fault (.memFault a) :=
  State.withWrite_of_not ((admits_eq_false_iff _ _).mpr h) k

/-! ### What a completed instruction adds to the bus (R58) -/

/-- A completed instruction has performed its own accesses, in order, after those logged before it. -/
theorem exec_bus {i : Instr} {s t : State} (h : exec i s = .next t) :
    t.out.bus = s.out.bus ++ dataAccesses i s := by
  cases i with
  | adds | subs | addis | subis | ands | lsl | eor | orr | lsr | movz
  | b | br | hlt | bEq | bNe | bGe | bLt | bGt | bLe | bUnrecognised =>
    obtain rfl := Host.Outcome.next.inj h
    exact (List.append_nil _).symm
  | stur rt rn imm9 =>
    rw [exec_stur] at h
    split_ifs at h
    obtain rfl := Host.Outcome.next.inj h
    simp [dataAccesses]
  | ldur rt rn imm9 =>
    rw [exec_ldur] at h
    split_ifs at h
    obtain rfl := Host.Outcome.next.inj h
    simp [dataAccesses]
  | sturb | sturh =>
    simp only [exec_sturb, exec_sturh, storeSpliced_next] at h
    obtain ⟨-, rfl⟩ := h
    simp [dataAccesses]
  | ldurb | ldurh =>
    simp only [exec_ldurb, exec_ldurh, loadNarrow_next] at h
    obtain ⟨-, rfl⟩ := h
    simp [dataAccesses]

theorem execUnknown_bus {w : Word} {s t : State} (h : execUnknown w s = .next t) : t.out.bus = s.out.bus := by
  obtain rfl := Host.Outcome.next.inj h
  rfl

/-! ### From the fetch to the instruction (R111, R112) -/

/-- The state in which the fetched word is executed: `nxt = cur`, the fetch logged and nothing else put out. -/
abbrev State.afterFetch (s : State) : State := s.beginCycle.logAccess (.read s.cur.pc (fetchedWord s))

theorem State.afterFetch_bus (s : State) : s.afterFetch.out.bus = [.read s.cur.pc (fetchedWord s)] := rfl

/-- The fetch changes nothing that an instruction's accesses depend on. -/
theorem dataAccesses_afterFetch (i : Instr) (s : State) : dataAccesses i s.afterFetch = dataAccesses i s := by
  cases i <;> rfl

/-- A step that completes commits what the fetched instruction, or the unknown instruction, left. -/
theorem step_next_cases {s t : State} (h : step s = .next t) : ∃ u, t = u.commit ∧
    ((∃ i, fetchedInstr s = some i ∧ exec i s.afterFetch = .next u) ∨
      fetchedInstr s = none ∧ execUnknown (fetchedWord s) s.afterFetch = .next u) := by
  obtain ⟨-, -, u, hu, rfl⟩ := step_next.mp h
  refine ⟨u, rfl, ?_⟩
  rw [executeWord_eq, State.logAccess_cfg, State.beginCycle_cfg] at hu
  cases hd : decode s.cfg.opcodeTable s.cfg.shiftSplit (fetchedWord s) with
  | ok i =>
    rw [hd] at hu
    exact .inl ⟨i, by simp only [fetchedInstr, hd], hu⟩
  | error e =>
    rw [hd] at hu
    exact .inr ⟨by simp only [fetchedInstr, hd], hu⟩

/-! ### The accesses of a cycle -/

theorem cycleAccesses_of_some {s : State} {i : Instr} (h : fetchedInstr s = some i) :
    cycleAccesses s = .read s.cur.pc (fetchedWord s) :: dataAccesses i s := by
  simp only [cycleAccesses, h]

theorem cycleAccesses_of_none {s : State} (h : fetchedInstr s = none) :
    cycleAccesses s = [.read s.cur.pc (fetchedWord s)] := by
  simp only [cycleAccesses, h]

/-- The bus of a completed step holds the accesses of its cycle, each once and in order. -/
theorem step_bus {s t : State} (h : step s = .next t) : t.out.bus = cycleAccesses s := by
  obtain ⟨u, rfl, ⟨i, hi, hu⟩ | ⟨hnone, hu⟩⟩ := step_next_cases h
  · rw [State.commit_out, exec_bus hu, State.afterFetch_bus, dataAccesses_afterFetch, cycleAccesses_of_some hi]
    rfl
  · rw [State.commit_out, execUnknown_bus hu, State.afterFetch_bus, cycleAccesses_of_none hnone]

/-- An instruction makes no access, one, or a read and then one more: only its last can be a write. -/
theorem dataAccesses_cases (i : Instr) (s : State) :
    dataAccesses i s = [] ∨ (∃ b, dataAccesses i s = [b]) ∨ ∃ a v b, dataAccesses i s = [.read a v, b] := by
  cases i with
  | adds | subs | addis | subis | ands | lsl | eor | orr | lsr | movz
  | b | br | hlt | bEq | bNe | bGe | bLt | bGt | bLe | bUnrecognised => exact .inl rfl
  | stur | ldurb | ldurh => exact .inr (.inl ⟨_, rfl⟩)
  | sturb | sturh | ldur => exact .inr (.inr ⟨_, _, _, rfl⟩)

/-- A cycle makes the fetch and then no access, one, or a read and then one more. -/
theorem cycleAccesses_cases (s : State) : ∃ l, cycleAccesses s = .read s.cur.pc (fetchedWord s) :: l ∧
    (l = [] ∨ (∃ b, l = [b]) ∨ ∃ a v b, l = [.read a v, b]) := by
  cases h : fetchedInstr s with
  | none => exact ⟨[], cycleAccesses_of_none h, .inl rfl⟩
  | some i => exact ⟨dataAccesses i s, cycleAccesses_of_some h, dataAccesses_cases i s⟩

theorem cycleAccesses_length_le (s : State) : (cycleAccesses s).length ≤ 3 := by
  obtain ⟨l, heq, rfl | ⟨b, rfl⟩ | ⟨a, v, b, rfl⟩⟩ := cycleAccesses_cases s <;> simp [heq]

theorem cycleAccesses_dropLast_isRead (s : State) : ∀ b ∈ (cycleAccesses s).dropLast, b.isRead = true := by
  obtain ⟨l, heq, rfl | ⟨b, rfl⟩ | ⟨a, v, b, rfl⟩⟩ := cycleAccesses_cases s <;> simp [heq, BusAccess.isRead]

/-! ### The statements of the family -/

/-- Settles O35: the read primitive under admission, with the word at the address written out in each byte order. -/
theorem memReadAssemblesAdmittedWord : Obligations.MemReadAssemblesAdmittedWord := by
  refine fun s a rest => ⟨fun hadm he => ?_, fun hadm he => ?_, fun hadm => State.withRead_of_not_admissible hadm rest⟩
  · rw [State.withRead_of_admissible hadm, State.wordAt_of_little he]
  · rw [State.withRead_of_admissible hadm, State.wordAt_of_big he]

/-- Settles O36: the state the write primitive goes on with is the stored word's, whose bytes the memory laws give. -/
theorem memWriteStoresFourBytes : Obligations.MemWriteStoresFourBytes := by
  refine fun s a v rest hwf => ⟨fun hadm => ?_, fun hadm => State.withWrite_of_not_admissible hadm v rest⟩
  obtain ⟨h0, h1, h2, h3⟩ := State.bytesAt_storeWord hwf a v
  rw [byteOfWord_eq_ite] at h0 h1 h2 h3
  refine ⟨(s.storeWord a v).logAccess (.write a v), State.withWrite_of_admissible hadm v rest, h0, h1, h2, h3,
    fun b => State.byteAt_storeWord_of_ne hwf, rfl, rfl, rfl, rfl, Memory.wf_writeWord hwf, rfl⟩

/-- Settles O40: the bus of a completed step, and the shapes of a cycle's accesses. -/
theorem cycleAccessesInOrder : Obligations.CycleAccessesInOrder :=
  fun s _ h => ⟨step_bus h, cycleAccesses_length_le s, cycleAccesses_dropLast_isRead s⟩

end Sys2Proof.Machine
end

section
/-! Family `30_encoding.md`: the three offsets (R98 to R100). Each is its field sign-extended, the branch offsets after two
zero bits are appended: its signed value is the field's, times 4 for the branches, and its range is the range of a signed
number of the field's width. -/

namespace Sys2Proof.Machine

/-! ### The signed value of an offset -/

/-- Two zero bits below the field multiply the signed value by 4, and 64 bits lose none of it (R99, R100). -/
theorem toInt_signExtend_append_two_zeros {n : Nat} (hn : n + 2 ≤ 64) (imm : BitVec n) :
    ((imm ++ 0b00#2).signExtend 64).toInt = 4 * imm.toInt := by
  rw [BitVec.toInt_signExtend_of_le hn, BitVec.toInt_append_zero]
  norm_num

@[simp] theorem memOffset_toInt (imm9 : BitVec 9) : (memOffset imm9).toInt = imm9.toInt :=
  BitVec.toInt_signExtend_of_le (by decide)

@[simp] theorem condOffset_toInt (imm19 : BitVec 19) : (condOffset imm19).toInt = 4 * imm19.toInt :=
  toInt_signExtend_append_two_zeros (by decide) imm19

@[simp] theorem branchOffset_toInt (imm26 : BitVec 26) : (branchOffset imm26).toInt = 4 * imm26.toInt :=
  toInt_signExtend_append_two_zeros (by decide) imm26

/-! ### The range of an offset -/

theorem memOffset_toInt_range (imm9 : BitVec 9) :
    -256 ≤ (memOffset imm9).toInt ∧ (memOffset imm9).toInt ≤ 255 := by
  have hlo := imm9.le_toInt
  have hhi := imm9.toInt_lt
  rw [memOffset_toInt]
  omega

theorem condOffset_toInt_range (imm19 : BitVec 19) :
    -2 ^ 20 ≤ (condOffset imm19).toInt ∧ (condOffset imm19).toInt ≤ 2 ^ 20 - 4 := by
  have hlo := imm19.le_toInt
  have hhi := imm19.toInt_lt
  rw [condOffset_toInt]
  omega

theorem branchOffset_toInt_range (imm26 : BitVec 26) :
    -2 ^ 27 ≤ (branchOffset imm26).toInt ∧ (branchOffset imm26).toInt ≤ 2 ^ 27 - 4 := by
  have hlo := imm26.le_toInt
  have hhi := imm26.toInt_lt
  rw [branchOffset_toInt]
  omega

/-! ### The statement -/

/-- Settles O21: the signed value and the range of each offset, at the field of the word. -/
theorem offsetsAreSignedAndInRange : Obligations.OffsetsAreSignedAndInRange :=
  ⟨fun w => ⟨memOffset_toInt (fieldImm9 w), memOffset_toInt_range (fieldImm9 w)⟩,
    fun w => ⟨condOffset_toInt (fieldImm19 w), condOffset_toInt_range (fieldImm19 w)⟩,
    fun w => ⟨branchOffset_toInt (fieldImm26 w), branchOffset_toInt_range (fieldImm26 w)⟩⟩

end Sys2Proof.Machine
end

section
/-! Family `41_alu.md`: the ten arithmetic and logical instructions (R133 to R142). Each statement has two halves. Which
words decode to the instruction follows from `decode_default`, extended here to rows with several opcodes and to the two
shifts under each `SHIFT_SPLIT`. That the instruction completes with its result and leaves the rest follows from the two
shapes every one of them has: `aluSetFlags_completes` and `aluKeepFlags_completes`. -/

namespace Sys2Proof

/-! ### Rows of the default table with several primary opcodes (R93, R95) -/

/-- A word whose primary opcode is one of a row's, the row being no shift's, decodes to the row's instruction. -/
theorem decode_default_of_mem {split : ShiftSplit} {w : Word} {ops : List (BitVec 11)} {t : TableInstr}
    (hop : fieldOp11 w ∈ ops) (hf : ∀ op ∈ ops, defaultOpcodeTable.find op = some t)
    (hb : ∀ op ∈ ops, op.extractLsb' 3 8 ≠ 0x54#8 := by decide)
    (hs : ∀ op ∈ ops, op ≠ 0x69A#11 ∧ op ≠ 0x69B#11 := by decide) :
    decode defaultOpcodeTable split w = .ok (decodeFields t w) :=
  decode_default rfl (hf _ hop) (hb _ hop) (hs _ hop)

/-- A word whose primary opcode is one of several that the default table leaves out is unknown (R102). -/
theorem decode_default_unknown_of_mem {split : ShiftSplit} {w : Word} {ops : List (BitVec 11)}
    (hop : fieldOp11 w ∈ ops) (hf : ∀ op ∈ ops, defaultOpcodeTable.find op = none)
    (hb : ∀ op ∈ ops, op.extractLsb' 3 8 ≠ 0x54#8 := by decide) :
    decode defaultOpcodeTable split w = .error (.unknownOpcode w) :=
  decode_unknown (fieldHb_eq w ▸ hb _ hop) (hf _ hop)

/-! ### The two shifts (R86) -/

/-- Under `by_opcode` the table alone decides, at the shift opcodes too. -/
theorem decode_default_byOpcode {w : Word} {op : BitVec 11} {t : TableInstr} (hop : fieldOp11 w = op)
    (hf : defaultOpcodeTable.find op = some t) (hb : op.extractLsb' 3 8 ≠ 0x54#8 := by decide) :
    decode defaultOpcodeTable .byOpcode w = .ok (decodeFields t w) := by
  subst hop
  exact decode_table (fieldHb_eq w ▸ hb) ((dispatchOp11_eq_find (.inl rfl)).trans hf)

/-- Under `by_imms` a table that has the two shift opcodes leaves it to `imms` which shift a word is. -/
theorem dispatchOp11_byImms {table : OpcodeTable} {w : Word} (hop : fieldOp11 w = 0x69A#11 ∨ fieldOp11 w = 0x69B#11)
    (hf : table.find (fieldOp11 w) ≠ none) :
    dispatchOp11 table .byImms w = if fieldImms w = 63#6 then some .lsr else some .lsl := by
  obtain ⟨t, ht⟩ := Option.ne_none_iff_exists'.mp hf
  simp [dispatchOp11, ht, hop]

theorem decode_default_byImms {w : Word} (hop : fieldOp11 w ∈ [0x69A#11, 0x69B#11]) :
    decode defaultOpcodeTable .byImms w =
      .ok (decodeFields (if fieldImms w = 63#6 then .lsr else .lsl) w) := by
  have hb : ∀ op ∈ [0x69A#11, 0x69B#11], op.extractLsb' 3 8 ≠ 0x54#8 := by decide
  have hf : ∀ op ∈ [0x69A#11, 0x69B#11], defaultOpcodeTable.find op ≠ none := by decide
  refine decode_table (fieldHb_eq w ▸ hb _ hop) ((dispatchOp11_byImms (by simpa using hop) (hf _ hop)).trans ?_)
  exact (apply_ite some _ _ _).symm

/-- Bit 21 of a word is both the top bit of `immr` and the lowest bit of the primary opcode (R101). -/
theorem fieldImmr_msb (w : Word) : (fieldImmr w).msb = (fieldOp11 w).getLsbD 0 := by
  simp [BitVec.msb_eq_getLsbD_last, fieldImmr, fieldOp11]

/-- The `immr` of a word with an even primary opcode is at most 31 (R101). -/
theorem fieldImmr_toNat_le_of_even_op11 {w : Word} (h : (fieldOp11 w).getLsbD 0 = false) : (fieldImmr w).toNat ≤ 31 := by
  have hlt := BitVec.msb_eq_false_iff_two_mul_lt.mp ((fieldImmr_msb w).trans h)
  omega

end Sys2Proof

namespace Sys2Proof.Machine

/-! ### The two shapes of an ALU instruction (R27, R132) -/

/-- `x[Rd] <- r; SetFlags(r)` completes with `r` in `Rd`, the flags of `r`, and nothing else written but the PC. -/
theorem aluSetFlags_completes (id : TableInstr) (rd : RegIndex) (r : DWord) (s : State) :
    CompletesAlu s (aluSetFlags id rd r s) id rd r true := by
  have hflags : SetsFlagsFrom (((s.setX rd r).setFlags r).advancePc.emit (.decoded (.table id))) r :=
    ⟨flagZero_iff r, flagNegative_iff r⟩
  exact ⟨_, aluSetFlags_eq id rd r s, fun i => Proc.x_setX s.nxt rd i r, (if_pos rfl).mpr hflags, rfl, rfl, rfl,
    fun _ => rfl, ⟨rfl, rfl⟩, (List.append_nil _).symm, rfl⟩

/-- `x[Rd] <- r` completes with `r` in `Rd` and nothing else written but the PC. -/
theorem aluKeepFlags_completes (id : TableInstr) (rd : RegIndex) (r : DWord) (s : State) :
    CompletesAlu s (aluKeepFlags id rd r s) id rd r false := by
  have hflags : KeepsFlags s ((s.setX rd r).advancePc.emit (.decoded (.table id))) :=
    ⟨Proc.setX_z s.nxt rd r, Proc.setX_n s.nxt rd r⟩
  exact ⟨_, aluKeepFlags_eq id rd r s, fun i => Proc.x_setX s.nxt rd i r, (if_neg Bool.false_ne_true).mpr hflags, rfl,
    rfl, rfl, fun _ => rfl, ⟨rfl, rfl⟩, (List.append_nil _).symm, rfl⟩

/-! ### The statements: the row's words, and the shape at the instruction's own result -/

/-- Settles O1: the row of ADDS, and the flag-setting shape at the sum. -/
theorem addsWritesSumAndFlags : Obligations.AddsWritesSumAndFlags :=
  ⟨fun _ _ hop => decode_default (t := .adds) hop (by decide),
    fun rd rn rm s => aluSetFlags_completes .adds rd (s.x rn + s.x rm) s⟩

/-- Settles O2: the row of SUBS, and the flag-setting shape at the difference. -/
theorem subsWritesDifferenceAndFlags : Obligations.SubsWritesDifferenceAndFlags :=
  ⟨fun _ _ hop => decode_default (t := .subs) hop (by decide),
    fun rd rn rm s => aluSetFlags_completes .subs rd (s.x rn - s.x rm) s⟩

/-- Settles O3: the two opcodes of ADDIS, the two next to them that are in no row, and the flag-setting shape at the sum
with the unshifted immediate. -/
theorem addisAddsZeroExtendedImmediate : Obligations.AddisAddsZeroExtendedImmediate :=
  ⟨fun _ _ hop => decode_default_of_mem (t := .addis) hop (by decide),
    fun _ _ hop => decode_default_unknown_of_mem hop (by decide),
    fun rd rn imm12 s => aluSetFlags_completes .addis rd (s.x rn + addisOperand imm12) s⟩

/-- Settles O4: the four opcodes of SUBIS, and the flag-setting shape at the difference with the operand that `sh2`
selects. -/
theorem subisSubtractsShiftedImmediate : Obligations.SubisSubtractsShiftedImmediate :=
  ⟨fun _ _ hop => decode_default_of_mem (t := .subis) hop (by decide),
    fun rd rn imm12 sh2 s => aluSetFlags_completes .subis rd (s.x rn - subisOperand sh2 imm12) s⟩

/-- Settles O5: the row of ANDS, and the flag-setting shape at the conjunction. -/
theorem andsWritesConjunctionAndFlags : Obligations.AndsWritesConjunctionAndFlags :=
  ⟨fun _ _ hop => decode_default (t := .ands) hop (by decide),
    fun rd rn rm s => aluSetFlags_completes .ands rd (s.x rn &&& s.x rm) s⟩

/-- Settles O6: the row of EOR, and the flag-keeping shape at the exclusive OR. -/
theorem eorWritesExclusiveOrOnly : Obligations.EorWritesExclusiveOrOnly :=
  ⟨fun _ _ hop => decode_default (t := .eor) hop (by decide),
    fun rd rn rm s => aluKeepFlags_completes .eor rd (s.x rn ^^^ s.x rm) s⟩

/-- Settles O7: the row of ORR, and the flag-keeping shape at the disjunction. -/
theorem orrWritesDisjunctionOnly : Obligations.OrrWritesDisjunctionOnly :=
  ⟨fun _ _ hop => decode_default (t := .orr) hop (by decide),
    fun rd rn rm s => aluKeepFlags_completes .orr rd (s.x rn ||| s.x rm) s⟩

/-- Settles O8: the shift words under each split, `imms` not being 63 under `by_imms`, and the flag-setting shape at the
left shift. -/
theorem lslShiftsLeftAndSetsFlags : Obligations.LslShiftsLeftAndSetsFlags := by
  refine ⟨fun w hop => decode_default_byOpcode (t := .lsl) hop (by decide), fun w hop himms => ?_,
    fun rd rn imms s => aluSetFlags_completes .lsl rd (s.x rn <<< lslAmount imms) s⟩
  have hne : fieldImms w ≠ 63#6 := himms
  rw [decode_default_byImms hop, if_neg hne]
  rfl

/-- Settles O9: the shift words under each split, `imms` being 63 under `by_imms`, the bound that the even opcode 0x69A
puts on `immr`, and the flag-keeping shape at the logical right shift. -/
theorem lsrShiftsRightLogicallyOnly : Obligations.LsrShiftsRightLogicallyOnly := by
  refine ⟨fun w hop => ⟨decode_default_byOpcode (t := .lsr) hop (by decide), ?_⟩, fun w hop himms => ?_,
    fun rd rn immr s => aluKeepFlags_completes .lsr rd (s.x rn >>> lsrAmount immr) s⟩
  · have hop11 : fieldOp11 w = 0x69A#11 := hop
    exact fieldImmr_toNat_le_of_even_op11 (hop11 ▸ by decide)
  · have h63 : fieldImms w = 63#6 := himms
    rw [decode_default_byImms hop, if_pos h63]
    rfl

/-- Settles O10: the four opcodes of MOVZ, one for each `hw`, and the flag-keeping shape at the immediate. -/
theorem movzWritesImmediateIgnoringHw : Obligations.MovzWritesImmediateIgnoringHw :=
  ⟨fun _ _ hop => decode_default_of_mem (t := .movz) hop (by decide),
    fun rd imm16 hw s => aluKeepFlags_completes .movz rd (movzValue imm16 hw) s⟩

end Sys2Proof.Machine
end

section
/-! Family `42_cond_branch.md`: B.cond (R172 to R178). `decodeBCond` has one equation for each code and one for all the
others, and `condHolds` one `↔` for each code. That a branch completes and leaves all but the PC is
`State.finishAt_completes`, at whatever target; a condition enters only through the target. -/

namespace Sys2Proof

/-! ### The instruction of a B.cond word, by its code (R170, R178) -/

section
variable {w : Word}

theorem decodeBCond_bEq (h : fieldCond w = 0x0#4) : decodeBCond w = .bEq (fieldImm19 w) := by
  simp [decodeBCond, h]

theorem decodeBCond_bNe (h : fieldCond w = 0x1#4) : decodeBCond w = .bNe (fieldImm19 w) := by
  simp [decodeBCond, h]

theorem decodeBCond_bGe (h : fieldCond w = 0xA#4) : decodeBCond w = .bGe (fieldImm19 w) := by
  simp [decodeBCond, h]

theorem decodeBCond_bLt (h : fieldCond w = 0xB#4) : decodeBCond w = .bLt (fieldImm19 w) := by
  simp [decodeBCond, h]

theorem decodeBCond_bGt (h : fieldCond w = 0xC#4) : decodeBCond w = .bGt (fieldImm19 w) := by
  simp [decodeBCond, h]

theorem decodeBCond_bLe (h : fieldCond w = 0xD#4) : decodeBCond w = .bLe (fieldImm19 w) := by
  simp [decodeBCond, h]

theorem decodeBCond_bUnrecognised (h : fieldCond w ∉ [0x0#4, 0x1#4, 0xA#4, 0xB#4, 0xC#4, 0xD#4]) :
    decodeBCond w = .bUnrecognised (fieldCond w) (fieldImm19 w) := by
  simp only [List.mem_cons, List.not_mem_nil, or_false, not_or] at h
  obtain ⟨hEq, hNe, hGe, hLt, hGt, hLe⟩ := h
  simp [decodeBCond, hEq, hNe, hGe, hLt, hGt, hLe]

end

end Sys2Proof

namespace Sys2Proof.Machine

/-! ### The conditions (R172 to R177) -/

section
variable (z n : Bool)

theorem condHolds_bEq : condHolds 0x0#4 z n = true ↔ z = true := Iff.rfl

theorem condHolds_bNe : condHolds 0x1#4 z n = true ↔ z = false := by simp [condHolds]

theorem condHolds_bGe : condHolds 0xA#4 z n = true ↔ n = false := by simp [condHolds]

theorem condHolds_bLt : condHolds 0xB#4 z n = true ↔ n = true := Iff.rfl

theorem condHolds_bGt : condHolds 0xC#4 z n = true ↔ z = false ∧ n = false := by simp [condHolds]

theorem condHolds_bLe : condHolds 0xD#4 z n = true ↔ z = true ∨ n = true := by simp [condHolds]

end

/-! ### The shape of a branch (R223) -/

/-- An instruction that only sets the PC completes at its target and leaves everything else. -/
theorem State.finishAt_completes (s : State) (target : Addr) (e : Diag) :
    CompletesBranch s (s.finishAt target e) target e :=
  ⟨_, State.finishAt_eq s target e, State.setPc_nxt_pc s target, State.setPc_nxt_x s target, ⟨rfl, rfl⟩, rfl, rfl,
    State.setPc_byteAt s target, ⟨rfl, rfl⟩, (List.append_nil _).symm, rfl⟩

/-- B.cond branches on whatever proposition `P` says that its condition holds of the current flags (R171). -/
theorem branchOnCond_completes {cond : BitVec 4} {s : State} {P : Prop} [Decidable P] (imm19 : BitVec 19)
    (hP : condHolds cond s.cur.z s.cur.n = true ↔ P) :
    CompletesBranch s (branchOnCond cond imm19 s)
      (if P then s.cur.pc + condOffset imm19 else s.cur.pc + 4#64) (.decoded .bCond) := by
  simp only [← hP]
  exact State.finishAt_completes s _ _

/-! ### The statements -/

/-- Settles O11: the equation of each code, and the branch shape at the condition of each code. -/
theorem recognisedConditionsBranchOnCurrentFlags : Obligations.RecognisedConditionsBranchOnCurrentFlags := by
  refine ⟨fun table split w hb => ?_, fun imm19 s => ?_⟩
  · have hdecode : decode table split w = .ok (decodeBCond w) := decode_bCond hb
    rw [hdecode]
    exact ⟨fun h => congrArg _ (decodeBCond_bEq h), fun h => congrArg _ (decodeBCond_bNe h),
      fun h => congrArg _ (decodeBCond_bGe h), fun h => congrArg _ (decodeBCond_bLt h),
      fun h => congrArg _ (decodeBCond_bGt h), fun h => congrArg _ (decodeBCond_bLe h)⟩
  · exact ⟨branchOnCond_completes imm19 (condHolds_bEq _ _), branchOnCond_completes imm19 (condHolds_bNe _ _),
      branchOnCond_completes imm19 (condHolds_bGe _ _), branchOnCond_completes imm19 (condHolds_bLt _ _),
      branchOnCond_completes imm19 (condHolds_bGt _ _), branchOnCond_completes imm19 (condHolds_bLe _ _)⟩

/-- Settles O12: the ten codes are none of the six, and the branch shape at the next word. -/
theorem unrecognisedConditionFallsThrough : Obligations.UnrecognisedConditionFallsThrough := by
  refine ⟨fun table split w hb hcode => ?_,
    fun cond _ s => State.finishAt_completes s (s.cur.pc + 4#64) (.unknownCond cond)⟩
  have hdisjoint : ∀ c ∈ [0x2#4, 0x3#4, 0x4#4, 0x5#4, 0x6#4, 0x7#4, 0x8#4, 0x9#4, 0xE#4, 0xF#4],
      c ∉ [0x0#4, 0x1#4, 0xA#4, 0xB#4, 0xC#4, 0xD#4] := by decide
  exact (decode_bCond hb).trans (congrArg _ (decodeBCond_bUnrecognised (hdisjoint _ hcode)))

end Sys2Proof.Machine
end

section
/-! Family `43_memory_access.md`: the three stores (R191 to R193) and the three loads (R194 to R196). Each is a chain of
word accesses in the order of R58 whose last step is `State.withWrite_finish_completes` for a store and
`setX_finish_completes` for a load. An admitted read ahead of that step adds its access in front and changes nothing else
(`CompletesStore.of_logAccess`, `CompletesLoad.of_logAccess`); a read or write that is not admitted is the fault. -/

namespace Sys2Proof.Machine

/-! ### An access logged ahead of a completed store or load (R58) -/

theorem Reports.of_logAccess {s t : State} {b : BusAccess} {l : List BusAccess} {e : Diag}
    (h : Reports (s.logAccess b) t l e) : Reports s t (b :: l) e := by
  obtain ⟨hbus, hdiag⟩ := h
  refine ⟨?_, hdiag⟩
  rw [hbus, State.logAccess_out_bus, List.append_assoc, List.singleton_append]

theorem CompletesStore.of_logAccess {s : State} {res : Result} {id : TableInstr} {a : Addr} {v : Word} {b : BusAccess}
    {l : List BusAccess} (h : CompletesStore (s.logAccess b) res id a v l) : CompletesStore s res id a v (b :: l) := by
  obtain ⟨t, hres, hword, hregs, hflags, hpc, hrun, hclr, hcur, hrep⟩ := h
  exact ⟨t, hres, hword, hregs, hflags, hpc, hrun, hclr, hcur, hrep.of_logAccess⟩

theorem CompletesLoad.of_logAccess {s : State} {res : Result} {id : TableInstr} {rt : RegIndex} {v : DWord}
    {b : BusAccess} {l : List BusAccess} (h : CompletesLoad (s.logAccess b) res id rt v l) :
    CompletesLoad s res id rt v (b :: l) := by
  obtain ⟨t, hres, hreg, hflags, hpc, hrun, hclr, hmem, hcur, hrep⟩ := h
  exact ⟨t, hres, hreg, hflags, hpc, hrun, hclr, hmem, hcur, hrep.of_logAccess⟩

/-! ### The last step of a store (R191 to R193) -/

theorem State.storesWord_storeWord {s : State} (hwf : s.mem.wf = true) (a : Addr) (v : Word) :
    StoresWord s (s.storeWord a v) a v :=
  ⟨State.wordAt_storeWord hwf, fun _ => State.byteAt_storeWord_of_ne hwf⟩

/-- An admitted word write that ends its instruction writes its word and the PC, and nothing else. -/
theorem State.withWrite_finish_completes {s : State} {a : Addr} (hwf : s.mem.wf = true) (hadm : admits s.cfg a = true)
    (id : TableInstr) (v : Word) :
    CompletesStore s (s.withWrite a v fun t => t.finish (.decoded (.table id))) id a v [.write a v] :=
  ⟨_, State.withWrite_of_admits hadm _, State.storesWord_storeWord hwf a v, fun _ => rfl, ⟨rfl, rfl⟩, rfl, rfl, rfl,
    ⟨rfl, rfl⟩, rfl, rfl⟩

/-- STUR is one word write of the low half of `Rt`. -/
theorem exec_stur_eq_withWrite (rt rn : RegIndex) (imm9 : BitVec 9) (s : State) : exec (.stur rt rn imm9) s =
    s.withWrite (effectiveAddress s rn imm9) (storedWord (s.x rt)) fun t => t.finish (.decoded (.table .stur)) := rfl

/-- A narrow store completes with the word it read, spliced; the word is read before it is written (R192, R193). -/
theorem storeSpliced_completes {s : State} {ea : Addr} (hwf : s.mem.wf = true) (hadm : admits s.cfg ea = true)
    (id : TableInstr) (splice : Word → Word) :
    CompletesStore s (storeSpliced id ea splice s) id ea (splice (s.wordAt ea))
      [.read ea (s.wordAt ea), .write ea (splice (s.wordAt ea))] := by
  rw [storeSpliced, State.withRead_of_admits hadm]
  exact (State.withWrite_finish_completes (s := s.logAccess _) hwf hadm id _).of_logAccess

theorem storeSpliced_fault {s : State} {ea : Addr} (hadm : admits s.cfg ea = false) (id : TableInstr)
    (splice : Word → Word) : storeSpliced id ea splice s = .fault (.memFault ea) :=
  State.withRead_of_not hadm _

/-! ### The last step of a load (R194 to R196) -/

/-- Writing `Rt` once all words are read is what a flag-keeping ALU instruction does with its result. -/
theorem setX_finish_completes (id : TableInstr) (rt : RegIndex) (v : DWord) (s : State) :
    CompletesLoad s ((s.setX rt v).finish (.decoded (.table id))) id rt v [] :=
  aluKeepFlags_completes id rt v s

/-- A narrow load completes with the word it read, widened (R195, R196). -/
theorem loadNarrow_completes {s : State} {ea : Addr} (hadm : admits s.cfg ea = true) (id : TableInstr) (rt : RegIndex)
    (widen : Word → DWord) :
    CompletesLoad s (loadNarrow id rt ea widen s) id rt (widen (s.wordAt ea)) [.read ea (s.wordAt ea)] := by
  rw [loadNarrow, State.withRead_of_admits hadm]
  exact (setX_finish_completes id rt _ _).of_logAccess

theorem loadNarrow_fault {s : State} {ea : Addr} (hadm : admits s.cfg ea = false) (id : TableInstr) (rt : RegIndex)
    (widen : Word → DWord) : loadNarrow id rt ea widen s = .fault (.memFault ea) :=
  State.withRead_of_not hadm _

/-! ### LDUR: two reads, the second only after the first is admitted (R194) -/

section
variable {s : State} {rn : RegIndex} {imm9 : BitVec 9}

theorem execLdur_completes (rt : RegIndex) (hlo : admits s.cfg (effectiveAddress s rn imm9) = true)
    (hhi : admits s.cfg (effectiveAddress s rn imm9 + 4#64) = true) :
    CompletesLoad s (execLdur rt rn imm9 s) .ldur rt
      (s.wordAt (effectiveAddress s rn imm9 + 4#64) ++ s.wordAt (effectiveAddress s rn imm9))
      [.read (effectiveAddress s rn imm9) (s.wordAt (effectiveAddress s rn imm9)),
       .read (effectiveAddress s rn imm9 + 4#64) (s.wordAt (effectiveAddress s rn imm9 + 4#64))] := by
  rw [execLdur, State.withRead_of_admits hlo, State.withRead_of_admits (s := s.logAccess _) hhi]
  exact (setX_finish_completes .ldur rt _ _).of_logAccess.of_logAccess

theorem execLdur_fault_low (rt : RegIndex) (hlo : admits s.cfg (effectiveAddress s rn imm9) = false) :
    execLdur rt rn imm9 s = .fault (.memFault (effectiveAddress s rn imm9)) :=
  State.withRead_of_not hlo _

theorem execLdur_fault_high (rt : RegIndex) (hlo : admits s.cfg (effectiveAddress s rn imm9) = true)
    (hhi : admits s.cfg (effectiveAddress s rn imm9 + 4#64) = false) :
    execLdur rt rn imm9 s = .fault (.memFault (effectiveAddress s rn imm9 + 4#64)) := by
  rw [execLdur, State.withRead_of_admits hlo]
  exact State.withRead_of_not (s := s.logAccess _) hhi _

end

/-! ### The statements: the row's words, the shape where the access is admitted, the fault where it is not -/

/-- Settles O14: the row of STUR, and the one write that ends it. -/
theorem sturStoresLowWordOnly : Obligations.SturStoresLowWordOnly := by
  refine ⟨fun _ _ hop => decode_default (t := .stur) hop (by decide), fun rt rn imm9 s hwf => ?_⟩
  rw [exec_stur_eq_withWrite]
  exact ⟨fun hadm => State.withWrite_finish_completes hwf hadm .stur (storedWord (s.x rt)),
    fun hadm => State.withWrite_of_not hadm _⟩

/-- Settles O15: the row of STURB, and the narrow-store shape at the byte splice. -/
theorem sturbSplicesLowByte : Obligations.SturbSplicesLowByte := by
  refine ⟨fun _ _ hop => decode_default (t := .sturb) hop (by decide), fun rt rn imm9 s hwf => ?_⟩
  rw [exec_sturb]
  exact ⟨fun hadm => storeSpliced_completes hwf hadm .sturb fun old => spliceByte old (s.x rt),
    fun hadm => storeSpliced_fault hadm .sturb _⟩

/-- Settles O16: the row of STURH, and the narrow-store shape at the halfword splice. -/
theorem sturhSplicesLowHalfword : Obligations.SturhSplicesLowHalfword := by
  refine ⟨fun _ _ hop => decode_default (t := .sturh) hop (by decide), fun rt rn imm9 s hwf => ?_⟩
  rw [exec_sturh]
  exact ⟨fun hadm => storeSpliced_completes hwf hadm .sturh fun old => spliceHalf old (s.x rt),
    fun hadm => storeSpliced_fault hadm .sturh _⟩

/-- Settles O17: the row of LDUR, and its three cases by which of the two reads is admitted. -/
theorem ldurLoadsTwoWords : Obligations.LdurLoadsTwoWords :=
  ⟨fun _ _ hop => decode_default (t := .ldur) hop (by decide), fun rt _ _ _ =>
    ⟨execLdur_completes rt, execLdur_fault_low rt, execLdur_fault_high rt⟩⟩

/-- Settles O18: the row of LDURB, the narrow-load shape at `Widen8` of the low byte, and the default parameter. -/
theorem ldurbLoadsWidenedByte : Obligations.LdurbLoadsWidenedByte := by
  refine ⟨fun _ _ hop => decode_default (t := .ldurb) hop (by decide), fun rt rn imm9 s => ?_, rfl, fun _ => rfl⟩
  rw [exec_ldurb]
  exact ⟨fun hadm => loadNarrow_completes hadm .ldurb rt fun v => widen8 s.cfg.narrowLoadExt (v.extractLsb' 0 8),
    fun hadm => loadNarrow_fault hadm .ldurb rt _⟩

/-- Settles O19: the row of LDURH, the narrow-load shape at `Widen16` of the low halfword, and the default parameter. -/
theorem ldurhLoadsWidenedHalfword : Obligations.LdurhLoadsWidenedHalfword := by
  refine ⟨fun _ _ hop => decode_default (t := .ldurh) hop (by decide), fun rt rn imm9 s => ?_, rfl, fun _ => rfl⟩
  rw [exec_ldurh]
  exact ⟨fun hadm => loadNarrow_completes hadm .ldurh rt fun v => widen16 s.cfg.narrowLoadExt (v.extractLsb' 0 16),
    fun hadm => loadNarrow_fault hadm .ldurh rt _⟩

end Sys2Proof.Machine
end

section
/-! Family `44_branch_sequencing.md`: B, BR, HLT (R220 to R222), who owns the PC (R223), and the unknown instruction (R224).
B and BR are the branch shape of `State.finishAt_completes` at their own target. `exec_pc_of_not_ownsPc` is R223 for every
instruction at once; `cycle_of_unknown` gives the whole cycle of an unknown word as one state. -/

namespace Sys2Proof

/-! ### The primary opcodes of B (R93) -/

/-- The top six bits of a word are those of its primary opcode (R81). -/
theorem fieldOp11_eq_append (w : Word) : fieldOp11 w = w.extractLsb' 26 6 ++ w.extractLsb' 21 5 := by
  rw [BitVec.extractLsb'_append_extractLsb'_eq_extractLsb' (by rfl)]
  rfl

/-- The top six bits alone make a word a B word, whatever its `imm26` puts into the primary opcode (R93). -/
theorem decode_default_b {split : ShiftSplit} {w : Word} (h : w.extractLsb' 26 6 = 0b000101#6) :
    decode defaultOpcodeTable split w = .ok (.b (fieldImm26 w)) := by
  have hrow : ∀ imm5 : BitVec 5, defaultOpcodeTable.find (0b000101#6 ++ imm5) = some .b ∧
      (0b000101#6 ++ imm5).extractLsb' 3 8 ≠ 0x54#8 ∧
      (0b000101#6 ++ imm5 ≠ 0x69A#11 ∧ 0b000101#6 ++ imm5 ≠ 0x69B#11) := by decide
  obtain ⟨hfind, hhb, hshift⟩ := hrow (w.extractLsb' 21 5)
  have hop : fieldOp11 w = 0b000101#6 ++ w.extractLsb' 21 5 := h ▸ fieldOp11_eq_append w
  exact decode_default hop hfind hhb hshift

end Sys2Proof

namespace Sys2Proof.Machine

/-! ### Who advances the PC (R223) -/

/-- An instruction that does not own the PC leaves it at the next word when it completes. -/
theorem exec_pc_of_not_ownsPc {i : Instr} {s t : State} (h : exec i s = .next t) (howns : ownsPc i = false) :
    t.nxt.pc = s.cur.pc + 4#64 := by
  cases i with
  | adds | subs | addis | subis | ands | lsl | eor | orr | lsr | movz | hlt =>
    obtain rfl := Host.Outcome.next.inj h
    rfl
  | stur rt rn imm9 =>
    rw [exec_stur] at h
    split_ifs at h
    obtain rfl := Host.Outcome.next.inj h
    rfl
  | ldur rt rn imm9 =>
    rw [exec_ldur] at h
    split_ifs at h
    obtain rfl := Host.Outcome.next.inj h
    rfl
  | sturb | sturh =>
    simp only [exec_sturb, exec_sturh, storeSpliced_next] at h
    obtain ⟨-, rfl⟩ := h
    rfl
  | ldurb | ldurh =>
    simp only [exec_ldurb, exec_ldurh, loadNarrow_next] at h
    obtain ⟨-, rfl⟩ := h
    rfl
  | b | br | bEq | bNe | bGe | bLt | bGt | bLe | bUnrecognised => cases howns

theorem execUnknown_pc {w : Word} {s t : State} (h : execUnknown w s = .next t) :
    t.nxt.pc = s.cur.pc + 4#64 := by
  obtain rfl := Host.Outcome.next.inj h
  rfl

/-- The owners of the PC are B, BR and B.cond with any code. -/
theorem ownsPc_iff (i : Instr) : ownsPc i = true ↔
    ((∃ imm26, i = .b imm26) ∨ (∃ rn, i = .br rn) ∨
      (∃ imm19, i = .bEq imm19 ∨ i = .bNe imm19 ∨ i = .bGe imm19 ∨ i = .bLt imm19 ∨ i = .bGt imm19 ∨ i = .bLe imm19) ∨
      ∃ cond imm19, i = .bUnrecognised cond imm19) := by
  cases i with
  | b | br | bEq | bNe | bGe | bLt | bGt | bLe | bUnrecognised => exact iff_of_true rfl (by simp)
  | adds | subs | addis | subis | ands | eor | orr | lsl | lsr | movz
  | stur | sturb | sturh | ldur | ldurb | ldurh | hlt =>
    exact iff_of_false Bool.false_ne_true (by simp)

/-! ### The cycle of an unknown word (R224) -/

theorem executeWord_unknown {w : Word} {s : State} (hhb : fieldHb w ≠ 0x54#8)
    (hfind : s.cfg.opcodeTable.find (fieldOp11 w) = none) : executeWord exec w s = execUnknown w s := by
  rw [executeWord_eq, decode_unknown hhb hfind]

/-- An unknown word that is fetched makes its cycle the fetch, the PC rule and one event. -/
theorem cycle_of_unknown {s : State} (hadm : admits s.cfg s.cur.pc = true) (hhb : fieldHb (fetchedWord s) ≠ 0x54#8)
    (hfind : s.cfg.opcodeTable.find (fieldOp11 (fetchedWord s)) = none) :
    cycle s = .next (s.afterFetch.advancePc.emit (.unknownOpcode (fetchedWord s))) :=
  (cycle_of_admits hadm).trans (executeWord_unknown (s := s.afterFetch) hhb hfind)

/-! ### The statements -/

/-- Settles O23: the row of B, and the branch shape at the offset of `imm26`. -/
theorem branchGoesToSignedOffset : Obligations.BranchGoesToSignedOffset :=
  ⟨fun _ _ => decode_default_b,
    fun imm26 s => State.finishAt_completes s (s.cur.pc + branchOffset imm26) (.decoded (.table .b))⟩

/-- Settles O24: the row of BR, and the branch shape at the register's value. -/
theorem branchRegisterGoesToRegisterVerbatim : Obligations.BranchRegisterGoesToRegisterVerbatim :=
  ⟨fun _ _ hop => decode_default (t := .br) hop (by decide),
    fun rn s => State.finishAt_completes s (s.x rn) (.decoded (.table .br))⟩

/-- Settles O25: the row of HLT, and the state it completes in: the run signal cleared, then the generic PC rule. -/
theorem hltClearsRunningAndAdvances : Obligations.HltClearsRunningAndAdvances :=
  ⟨fun _ _ hop => decode_default (t := .hlt) hop (by decide), fun s =>
    ⟨_, exec_hlt s, State.clearRunning_running s, State.clearRunning_out_runClr s,
      State.advancePc_nxt_pc s.clearRunning, State.advancePc_nxt_x s.clearRunning, ⟨rfl, rfl⟩,
      State.clearRunning_byteAt s, ⟨rfl, rfl⟩, (List.append_nil _).symm, rfl⟩⟩

/-- Settles O26: the primary opcodes of the seven words are in no row of the default table, and the cycle of an unknown word. -/
theorem unknownWordOnlyAdvancesAndReports : Obligations.UnknownWordOnlyAdvancesAndReports := by
  refine ⟨fun split w hw => ?_, fun s hadm hhb hfind =>
    ⟨_, cycle_of_unknown hadm hhb hfind, rfl, rfl, rfl, rfl, rfl, rfl⟩⟩
  have hops : [0x00000000#32, 0xFFFFFFFF#32, 0xD503201F#32, 0x91000421#32, 0xAB220023#32, 0xB1400423#32,
      0xD65F03C0#32].map fieldOp11 = [0x000#11, 0x7FF#11, 0x6A8#11, 0x488#11, 0x559#11, 0x58A#11, 0x6B2#11] := rfl
  exact decode_default_unknown_of_mem (hops ▸ List.mem_map_of_mem hw) (by decide)

/-- Settles O32: the PC of an instruction that is no owner, that of the unknown instruction, and the list of owners. -/
theorem onlyBranchesOwnThePc : Obligations.OnlyBranchesOwnThePc :=
  ⟨fun _ _ _ => exec_pc_of_not_ownsPc, fun _ _ _ => execUnknown_pc, ownsPc_iff⟩

end Sys2Proof.Machine
end

section
/-! Family `other`, the session under the other byte order (R57). -/

namespace Sys2Proof.Machine

/-! ### Aligned words (R55, R57) -/

/-- Where the policy is `fault`, an admitted address is a multiple of 4 (R55). -/
theorem aligned_of_admits {cfg : Config} {a : Addr} (hpolicy : cfg.alignPolicy = .fault) (hadm : admits cfg a = true) :
    a.toNat % 4 = 0 := by
  obtain ⟨-, hpass | haligned⟩ := (admits_iff cfg a).mp hadm
  · rw [hpolicy] at hpass; cases hpass
  · exact haligned

/-- No byte of an aligned word lies in another aligned word. -/
theorem aligned_bytes_ne {a b : Addr} (ha : a.toNat % 4 = 0) (hb : b.toNat % 4 = 0) (hne : a ≠ b) :
    ∀ j ∈ [0#64, 1#64, 2#64, 3#64], ∀ k ∈ [0#64, 1#64, 2#64, 3#64], a + j ≠ b + k := by
  have hne' : a.toNat ≠ b.toNat := fun h => hne (BitVec.eq_of_toNat_eq h)
  simp only [List.forall_mem_cons, List.not_mem_nil, false_implies, implies_true, and_true, ne_eq, ← BitVec.toNat_inj,
    BitVec.toNat_add, BitVec.toNat_ofNat]
  omega

/-- Storing an aligned word changes no other aligned word. -/
theorem State.wordAt_storeWord_of_aligned_ne {s : State} {a b : Addr} {v : Word} (hwf : s.mem.wf = true)
    (ha : a.toNat % 4 = 0) (hb : b.toNat % 4 = 0) (hne : a ≠ b) : (s.storeWord b v).wordAt a = s.wordAt a := by
  have hbyte : ∀ j ∈ [0#64, 1#64, 2#64, 3#64], (s.storeWord b v).byteAt (a + j) = s.byteAt (a + j) := by
    intro j hj
    have hout := aligned_bytes_ne ha hb hne j hj
    simp only [List.forall_mem_cons, BitVec.add_zero] at hout
    obtain ⟨h0, h1, h2, h3, -⟩ := hout
    exact State.byteAt_storeWord_of_ne hwf h0 h1 h2 h3
  simp only [List.forall_mem_cons, BitVec.add_zero] at hbyte
  obtain ⟨h0, h1, h2, h3, -⟩ := hbyte
  simp only [State.wordAt, State.storeWord_cfg, h0, h1, h2, h3]

/-! ### Each operation keeps two sessions the same up to `ENDIAN` -/

namespace SameUpToEndian
variable {s s' : State}

theorem x (h : SameUpToEndian s s') (i : RegIndex) : s'.x i = s.x i := congrArg (Proc.x · i) h.cur

theorem effectiveAddress (h : SameUpToEndian s s') (rn : RegIndex) (imm9 : BitVec 9) :
    Machine.effectiveAddress s' rn imm9 = Machine.effectiveAddress s rn imm9 := by
  simp only [Machine.effectiveAddress, h.x]

theorem admits (h : SameUpToEndian s s') (a : Addr) : Machine.admits s'.cfg a = Machine.admits s.cfg a := by
  rw [h.cfg]; rfl

theorem wordAt_of_admits (h : SameUpToEndian s s') {a : Addr} (hadm : Machine.admits s.cfg a = true) :
    s'.wordAt a = s.wordAt a :=
  h.words a (aligned_of_admits h.policy hadm)

theorem setX (h : SameUpToEndian s s') (i : RegIndex) (v : DWord) : SameUpToEndian (s.setX i v) (s'.setX i v) :=
  { h with nxt := congrArg (Proc.setX · i v) h.nxt }

theorem setFlags (h : SameUpToEndian s s') (r : DWord) : SameUpToEndian (s.setFlags r) (s'.setFlags r) :=
  { h with nxt := congrArg (fun p : Proc => { p with z := flagZero r, n := flagNegative r }) h.nxt }

theorem setPc (h : SameUpToEndian s s') (t : Addr) : SameUpToEndian (s.setPc t) (s'.setPc t) :=
  { h with nxt := congrArg (fun p : Proc => { p with pc := t }) h.nxt }

theorem advancePc (h : SameUpToEndian s s') : SameUpToEndian s.advancePc s'.advancePc := by
  rw [State.advancePc, State.advancePc, h.cur]; exact h.setPc _

theorem clearRunning (h : SameUpToEndian s s') : SameUpToEndian s.clearRunning s'.clearRunning :=
  { h with running := rfl, out := congrArg (fun o : CycleOut => { o with runClr := true }) h.out }

theorem emit (h : SameUpToEndian s s') (e : Diag) : SameUpToEndian (s.emit e) (s'.emit e) :=
  { h with out := congrArg (fun o : CycleOut => { o with diag := o.diag ++ [e] }) h.out }

theorem logAccess (h : SameUpToEndian s s') (b : BusAccess) : SameUpToEndian (s.logAccess b) (s'.logAccess b) :=
  { h with out := congrArg (fun o : CycleOut => { o with bus := o.bus ++ [b] }) h.out }

theorem beginCycle (h : SameUpToEndian s s') : SameUpToEndian s.beginCycle s'.beginCycle :=
  { h with nxt := h.cur, out := rfl }

theorem commit (h : SameUpToEndian s s') : SameUpToEndian s.commit s'.commit := { h with cur := h.nxt }

/-- The one operation that lays bytes down: both sessions then hold the stored word, and the aligned words beside it. -/
theorem storeWord (h : SameUpToEndian s s') {a : Addr} (ha : a.toNat % 4 = 0) (v : Word) :
    SameUpToEndian (s.storeWord a v) (s'.storeWord a v) :=
  { h with
    memWf := Memory.wf_writeWord h.memWf
    memWf' := Memory.wf_writeWord h.memWf'
    words := by
      intro b hb
      by_cases hba : b = a
      · subst hba
        rw [State.wordAt_storeWord h.memWf, State.wordAt_storeWord h.memWf']
      · rw [State.wordAt_storeWord_of_aligned_ne h.memWf hb ha hba,
          State.wordAt_storeWord_of_aligned_ne h.memWf' hb ha hba, h.words b hb] }

end SameUpToEndian

/-! ### The simulation, from the primitives to the step -/

/-- Two sessions' outcomes are the same up to `ENDIAN`: related states, the same fault, or the same refusal. -/
inductive SameOutcome : Result → Result → Prop where
  | next {t t' : State} (h : SameUpToEndian t t') : SameOutcome (.next t) (.next t')
  | fault (f : Fault) : SameOutcome (.fault f) (.fault f)
  | refused (q : Refusal) : SameOutcome (.refused q) (.refused q)

theorem SameOutcome.of_next {t : State} {r' : Result} (h : SameOutcome (.next t) r') :
    ∃ t', r' = .next t' ∧ SameUpToEndian t t' := by
  cases h with
  | next ht => exact ⟨_, rfl, ht⟩

theorem SameOutcome.of_fault {f : Fault} {r' : Result} (h : SameOutcome (.fault f) r') : r' = .fault f := by
  cases h with
  | fault => rfl

theorem SameOutcome.of_refused {q : Refusal} {r' : Result} (h : SameOutcome (.refused q) r') : r' = .refused q := by
  cases h with
  | refused => rfl

theorem SameOutcome.commitDone {r r' : Result} (h : SameOutcome r r') :
    SameOutcome (commitDone r) (commitDone r') := by
  cases h with
  | next ht => exact .next ht.commit
  | fault f => exact .fault f
  | refused q => exact .refused q

section
variable {s s' : State} (h : SameUpToEndian s s')
include h

theorem SameUpToEndian.finish (e : Diag) : SameOutcome (s.finish e) (s'.finish e) := .next (h.advancePc.emit e)

theorem SameUpToEndian.finishAt (t : Addr) (e : Diag) : SameOutcome (s.finishAt t e) (s'.finishAt t e) :=
  .next ((h.setPc t).emit e)

theorem SameUpToEndian.withRead (a : Addr) {k k' : Word → State → Result}
    (hk : ∀ v {t t' : State}, SameUpToEndian t t' → SameOutcome (k v t) (k' v t')) :
    SameOutcome (s.withRead a k) (s'.withRead a k') := by
  cases hadm : Machine.admits s.cfg a with
  | true =>
    rw [State.withRead_of_admits hadm, State.withRead_of_admits ((h.admits a).trans hadm), h.wordAt_of_admits hadm]
    exact hk _ (h.logAccess _)
  | false =>
    rw [State.withRead_of_not hadm, State.withRead_of_not ((h.admits a).trans hadm)]
    exact .fault _

theorem SameUpToEndian.withWrite (a : Addr) (v : Word) {k k' : State → Result}
    (hk : ∀ {t t' : State}, SameUpToEndian t t' → SameOutcome (k t) (k' t')) :
    SameOutcome (s.withWrite a v k) (s'.withWrite a v k') := by
  cases hadm : Machine.admits s.cfg a with
  | true =>
    rw [State.withWrite_of_admits hadm, State.withWrite_of_admits ((h.admits a).trans hadm)]
    exact hk ((h.storeWord (aligned_of_admits h.policy hadm) v).logAccess _)
  | false =>
    rw [State.withWrite_of_not hadm, State.withWrite_of_not ((h.admits a).trans hadm)]
    exact .fault _

theorem SameUpToEndian.aluSetFlags (id : TableInstr) (rd : RegIndex) (r : DWord) :
    SameOutcome (aluSetFlags id rd r s) (aluSetFlags id rd r s') :=
  ((h.setX rd r).setFlags r).finish _

theorem SameUpToEndian.aluKeepFlags (id : TableInstr) (rd : RegIndex) (r : DWord) :
    SameOutcome (aluKeepFlags id rd r s) (aluKeepFlags id rd r s') :=
  (h.setX rd r).finish _

theorem SameUpToEndian.storeSpliced (id : TableInstr) (ea : Addr) (f : Word → Word) :
    SameOutcome (storeSpliced id ea f s) (storeSpliced id ea f s') :=
  h.withRead ea fun _ _ _ ht => ht.withWrite ea _ fun hu => hu.finish _

theorem SameUpToEndian.loadNarrow (id : TableInstr) (rt : RegIndex) (ea : Addr) (f : Word → DWord) :
    SameOutcome (loadNarrow id rt ea f s) (loadNarrow id rt ea f s') :=
  h.withRead ea fun _ _ _ ht => (ht.setX rt _).finish _

theorem SameUpToEndian.exec (i : Instr) : SameOutcome (exec i s) (exec i s') := by
  have hext : s'.cfg.narrowLoadExt = s.cfg.narrowLoadExt := by rw [h.cfg]
  cases i with
  | adds rd rn rm | subs rd rn rm | addis rd rn imm12 | subis rd rn imm12 sh2 | ands rd rn rm | lsl rd rn imms =>
    simp only [Machine.exec, execAdds, execSubs, execAddis, execSubis, execAnds, execLsl, h.x]
    exact h.aluSetFlags _ rd _
  | eor rd rn rm | orr rd rn rm | lsr rd rn immr | movz rd imm16 hw =>
    simp only [Machine.exec, execEor, execOrr, execLsr, execMovz, h.x]
    exact h.aluKeepFlags _ rd _
  | stur rt rn imm9 =>
    simp only [Machine.exec, execStur, h.x, h.effectiveAddress]
    exact h.withWrite _ _ fun ht => ht.finish _
  | sturb rt rn imm9 | sturh rt rn imm9 =>
    simp only [exec_sturb, exec_sturh, h.x, h.effectiveAddress]
    exact h.storeSpliced _ _ _
  | ldur rt rn imm9 =>
    simp only [Machine.exec, execLdur, h.effectiveAddress]
    exact h.withRead _ fun _ _ _ ht => ht.withRead _ fun _ _ _ hu => (hu.setX rt _).finish _
  | ldurb rt rn imm9 | ldurh rt rn imm9 =>
    simp only [exec_ldurb, exec_ldurh, h.effectiveAddress, hext]
    exact h.loadNarrow _ rt _ _
  | hlt => exact h.clearRunning.finish _
  | b imm26 | br rn | bUnrecognised cond imm19 =>
    simp only [Machine.exec, execB, execBr, execBUnrecognised, h.x, h.cur]
    exact h.finishAt _ _
  | bEq imm19 | bNe imm19 | bGe imm19 | bLt imm19 | bGt imm19 | bLe imm19 =>
    simp only [Machine.exec, execBEq, execBNe, execBGe, execBLt, execBGt, execBLe, branchOnCond, h.cur]
    exact h.finishAt _ _

theorem SameUpToEndian.executeWord (w : Word) :
    SameOutcome (executeWord Machine.exec w s) (executeWord Machine.exec w s') := by
  have htable : s'.cfg.opcodeTable = s.cfg.opcodeTable := by rw [h.cfg]
  have hsplit : s'.cfg.shiftSplit = s.cfg.shiftSplit := by rw [h.cfg]
  rw [executeWord_eq, executeWord_eq, htable, hsplit]
  cases decode s.cfg.opcodeTable s.cfg.shiftSplit w with
  | ok i => exact h.exec i
  | error r => exact h.finish _

theorem SameUpToEndian.cycle : SameOutcome (cycle s) (cycle s') := by
  rw [Machine.cycle, Machine.cycle, cycleWith, cycleWith, h.cur]
  exact h.beginCycle.withRead _ fun w _ _ ht => ht.executeWord w

theorem SameUpToEndian.step : SameOutcome (step s) (step s') := by
  have htable : s'.cfg.opcodeTable = s.cfg.opcodeTable := by rw [h.cfg]
  simp only [Machine.step, runLoopWith, htable, h.running]
  split_ifs
  · exact h.cycle.commitDone
  · exact .refused _
  · exact .refused _

end

/-- Settles O37: a step takes sessions that are the same up to `ENDIAN` to the same outcome up to `ENDIAN`. -/
theorem endianUnobservableWhenAligned : Obligations.EndianUnobservableWhenAligned := by
  intro s s' h
  have hstep := h.step
  refine ⟨fun t ht => ?_, fun f hf => ?_, fun q hq => ?_⟩
  · rw [ht] at hstep; exact hstep.of_next
  · rw [hf] at hstep; exact hstep.of_fault
  · rw [hq] at hstep; exact hstep.of_refused

end Sys2Proof.Machine
end

section
/-! Family `other`, what one instruction and one step can do. `exec_completes` and `exec_faults` say when an instruction
completes, by the accesses R58 gives it; `exec_completed` says once what it leaves beside
the two records, which `exec_cur` and `exec_nxtEffect` give. The statements about steps follow through `step_next_cases`. -/

namespace Sys2Proof.Machine

/-! ### When an instruction completes (R241, R243) -/

section
variable {i : Instr} {s : State}

/-- An instruction whose accesses are all admitted completes. -/
theorem exec_completes (h : ∀ b ∈ dataAccesses i s, admits s.cfg b.addr = true) : ∃ t, exec i s = .next t := by
  cases i with
  | adds | subs | addis | subis | ands | lsl | eor | orr | lsr | movz
  | b | br | hlt | bEq | bNe | bGe | bLt | bGt | bLe | bUnrecognised => exact ⟨_, rfl⟩
  | stur | sturb | sturh | ldur | ldurb | ldurh =>
    simp only [dataAccesses, List.forall_mem_cons, List.not_mem_nil, false_implies, implies_true, and_true,
      BusAccess.addr] at h
    simp [exec_stur, exec_sturb, exec_sturh, exec_ldur, exec_ldurb, exec_ldurh, storeSpliced_eq, loadNarrow_eq, h]

/-- An instruction with an access that is not admitted faults at the first such access. -/
theorem exec_faults {b : BusAccess} (h : (dataAccesses i s).find? (fun b => !admits s.cfg b.addr) = some b) :
    exec i s = .fault (.memFault b.addr) := by
  cases i with
  | adds | subs | addis | subis | ands | lsl | eor | orr | lsr | movz
  | b | br | hlt | bEq | bNe | bGe | bLt | bGt | bLe | bUnrecognised => cases h
  | stur rt rn imm9 | ldurb rt rn imm9 | ldurh rt rn imm9 | sturb rt rn imm9 | sturh rt rn imm9 =>
    cases hadm : admits s.cfg (effectiveAddress s rn imm9) with
    | true => simp [dataAccesses, BusAccess.addr, hadm] at h
    | false =>
      have hea : b.addr = effectiveAddress s rn imm9 := by
        simp only [dataAccesses, BusAccess.addr, hadm, List.find?_cons, Bool.not_false, Option.some.injEq] at h
        rw [← h]; rfl
      simp [exec_stur, exec_sturb, exec_sturh, exec_ldurb, exec_ldurh, storeSpliced_eq, loadNarrow_eq, hadm, hea]
  | ldur rt rn imm9 =>
    simp only [dataAccesses, List.find?_cons, List.find?_nil, BusAccess.addr] at h
    rw [exec_ldur]
    split_ifs with hlo hhi
    · simp [hlo, hhi] at h
    · simp only [hlo, hhi, Bool.not_true, Bool.not_false, Option.some.injEq] at h
      rw [← h]; rfl
    · simp only [hlo, Bool.not_false, Option.some.injEq] at h
      rw [← h]; rfl

end

/-! ### What a completed instruction leaves -/

/-- Memory after those of the accesses that are writes, in order (R54). -/
def Memory.afterAccesses (e : Endian) : List BusAccess → Memory → Memory
  | [], m => m
  | .read _ _ :: l, m => Memory.afterAccesses e l m
  | .write a v :: l, m => Memory.afterAccesses e l (m.writeWord e a v)

/-- What `i` leaves beside the two records when it completes from `s` in `t`: memory as its own accesses write it, the run
signal unless it is HLT, one more event. -/
structure Completed (i : Instr) (s t : State) : Prop where
  cfg : t.cfg = s.cfg
  mem : t.mem = Memory.afterAccesses s.cfg.endian (dataAccesses i s) s.mem
  running : i ≠ .hlt → t.running = s.running
  halted : i = .hlt → t.running = false
  diag : t.out.diag = s.out.diag ++ [eventOf i]

theorem exec_completed {i : Instr} {s t : State} (h : exec i s = .next t) : Completed i s t := by
  cases i with
  | adds | subs | addis | subis | ands | lsl | eor | orr | lsr | movz
  | b | br | bEq | bNe | bGe | bLt | bGt | bLe | bUnrecognised =>
    obtain rfl := Host.Outcome.next.inj h
    exact ⟨rfl, rfl, fun _ => rfl, nofun, rfl⟩
  | hlt =>
    obtain rfl := Host.Outcome.next.inj h
    exact ⟨rfl, rfl, fun hne => absurd rfl hne, fun _ => rfl, rfl⟩
  | stur rt rn imm9 =>
    rw [exec_stur] at h
    split_ifs at h
    obtain rfl := Host.Outcome.next.inj h
    exact ⟨rfl, rfl, fun _ => rfl, nofun, rfl⟩
  | ldur rt rn imm9 =>
    rw [exec_ldur] at h
    split_ifs at h
    obtain rfl := Host.Outcome.next.inj h
    exact ⟨rfl, rfl, fun _ => rfl, nofun, rfl⟩
  | sturb | sturh | ldurb | ldurh =>
    simp only [exec_sturb, exec_sturh, exec_ldurb, exec_ldurh, storeSpliced_next, loadNarrow_next] at h
    obtain ⟨-, rfl⟩ := h
    exact ⟨rfl, rfl, fun _ => rfl, nofun, rfl⟩

theorem afterAccesses_of_storeAddress_none {i : Instr} {s : State} (h : storeAddress i s = none) (e : Endian)
    (m : Memory) : Memory.afterAccesses e (dataAccesses i s) m = m := by
  cases i with
  | stur | sturb | sturh => cases h
  | adds | subs | addis | subis | ands | eor | orr | lsl | lsr | movz | ldur | ldurb | ldurh
  | b | br | hlt | bEq | bNe | bGe | bLt | bGt | bLe | bUnrecognised => rfl

theorem afterAccesses_of_storeAddress_some {i : Instr} {s : State} {a : Addr} (h : storeAddress i s = some a)
    (e : Endian) (m : Memory) : ∃ v, Memory.afterAccesses e (dataAccesses i s) m = m.writeWord e a v := by
  cases i with
  | stur | sturb | sturh =>
    obtain rfl := Option.some.inj h
    exact ⟨_, rfl⟩
  | adds | subs | addis | subis | ands | eor | orr | lsl | lsr | movz | ldur | ldurb | ldurh
  | b | br | hlt | bEq | bNe | bGe | bLt | bGt | bLe | bUnrecognised => cases h

theorem Memory.wf_afterAccesses {e : Endian} {l : List BusAccess} {m : Memory} (h : m.wf = true) :
    (Memory.afterAccesses e l m).wf = true := by
  induction l generalizing m with
  | nil => exact h
  | cons b l ih =>
    cases b with
    | read a v => exact ih h
    | write a v => exact ih (Memory.wf_writeWord h)

/-- Admitted accesses list no byte outside the window (R52). -/
theorem Memory.within_afterAccesses {cfg : Config} {e : Endian} {l : List BusAccess} {m : Memory}
    (h : Memory.within cfg m) (hadm : ∀ b ∈ l, admits cfg b.addr = true) :
    Memory.within cfg (Memory.afterAccesses e l m) := by
  induction l generalizing m with
  | nil => exact h
  | cons b l ih =>
    obtain ⟨hb, hl⟩ := List.forall_mem_cons.mp hadm
    cases b with
    | read a v => exact ih h hl
    | write a v => exact ih (Memory.within_writeWord h (admits_inRange hb)) hl

theorem exec_next_iff {i : Instr} {s : State} :
    (∃ t, exec i s = .next t) ↔ ∀ b ∈ dataAccesses i s, admits s.cfg b.addr = true := by
  refine ⟨fun ⟨t, ht⟩ => ?_, exec_completes⟩
  cases hfirst : (dataAccesses i s).find? (fun b => !admits s.cfg b.addr) with
  | none => simpa using hfirst
  | some b => rw [exec_faults hfirst] at ht; cases ht

/-- Every event but that of an unrecognised condition is a `Decoded` (R115). -/
theorem eventOf_decoded {i : Instr} (h : ∀ cond imm19, i ≠ .bUnrecognised cond imm19) :
    ∃ id, eventOf i = .decoded id := by
  cases i with
  | bUnrecognised cond imm19 => exact absurd rfl (h cond imm19)
  | adds | subs | addis | subis | ands | eor | orr | lsl | lsr | movz | stur | sturb | sturh | ldur | ldurb | ldurh
  | b | br | hlt | bEq | bNe | bGe | bLt | bGt | bLe => exact ⟨_, rfl⟩

/-! ### What a step does -/

theorem executeWord_of_fetchedInstr {s : State} {i : Instr} (h : fetchedInstr s = some i) :
    executeWord exec (fetchedWord s) s.afterFetch = exec i s.afterFetch := by
  rw [executeWord_eq, State.logAccess_cfg, State.beginCycle_cfg]
  cases hd : decode s.cfg.opcodeTable s.cfg.shiftSplit (fetchedWord s) with
  | ok j =>
    simp only [fetchedInstr, hd, Option.some.injEq] at h
    rw [h]
  | error r => simp [fetchedInstr, hd] at h

theorem executeWord_of_fetchedInstr_none {s : State} (h : fetchedInstr s = none) :
    executeWord exec (fetchedWord s) s.afterFetch = execUnknown (fetchedWord s) s.afterFetch := by
  rw [executeWord_eq, State.logAccess_cfg, State.beginCycle_cfg]
  cases hd : decode s.cfg.opcodeTable s.cfg.shiftSplit (fetchedWord s) with
  | ok j => simp [fetchedInstr, hd] at h
  | error r => rfl

theorem step_eq_executeWord {s : State} (hl : s.live = true) (hadm : admits s.cfg s.cur.pc = true) :
    step s = commitDone (executeWord exec (fetchedWord s) s.afterFetch) := by
  rw [step_of_live hl, cycle_of_admits hadm]

/-- A live step all of whose accesses are admitted completes. -/
theorem step_completes {s : State} (hl : s.live = true) (hadm : ∀ b ∈ cycleAccesses s, admits s.cfg b.addr = true) :
    ∃ t, step s = .next t := by
  cases hi : fetchedInstr s with
  | none =>
    rw [cycleAccesses_of_none hi, List.forall_mem_singleton] at hadm
    rw [step_eq_executeWord hl hadm, executeWord_of_fetchedInstr_none hi]
    exact ⟨_, rfl⟩
  | some i =>
    rw [cycleAccesses_of_some hi] at hadm
    obtain ⟨hfetch, hdata⟩ := List.forall_mem_cons.mp hadm
    rw [← dataAccesses_afterFetch] at hdata
    obtain ⟨u, hu⟩ := exec_completes (s := s.afterFetch) hdata
    exact ⟨u.commit, by rw [step_eq_executeWord hl hfetch, executeWord_of_fetchedInstr hi, hu]; rfl⟩

/-- A live step with an access that is not admitted faults at the first such access, the fetch first. -/
theorem step_faults {s : State} (hl : s.live = true) {b : BusAccess}
    (h : (cycleAccesses s).find? (fun b => !admits s.cfg b.addr) = some b) : step s = .fault (.memFault b.addr) := by
  obtain ⟨l, hl', -⟩ := cycleAccesses_cases s
  cases hfetch : admits s.cfg s.cur.pc with
  | false =>
    rw [hl', List.find?_cons_of_pos (by simp [BusAccess.addr, hfetch])] at h
    obtain rfl := Option.some.inj h
    rw [step_of_live hl, cycle_of_not hfetch]; rfl
  | true =>
    cases hi : fetchedInstr s with
    | none => simp [cycleAccesses_of_none hi, BusAccess.addr, hfetch] at h
    | some i =>
      rw [cycleAccesses_of_some hi, List.find?_cons_of_neg (by simp [BusAccess.addr, hfetch]),
        ← dataAccesses_afterFetch] at h
      rw [step_eq_executeWord hl hfetch, executeWord_of_fetchedInstr hi, exec_faults (s := s.afterFetch) h]; rfl

theorem step_cfg {s t : State} (h : step s = .next t) : t.cfg = s.cfg := by
  obtain ⟨u, rfl, ⟨i, -, hu⟩ | ⟨-, hu⟩⟩ := step_next_cases h
  · exact (exec_completed hu).cfg
  · obtain rfl := Host.Outcome.next.inj hu
    rfl

/-! ### Slots and reads of the next record (R21, R23) -/

/-- No instruction writes the stored slot 31. -/
theorem NxtEffect.slot31 {i : Instr} {s : State} {p : Proc} (h : NxtEffect i s p) : p.regs[31] = s.nxt.regs[31] := by
  cases h with
  | setsRegAndFlags pc _ _ | setsReg _ pc _ _ => exact Proc.setX_slot31 _ _ _
  | setsPcOnly pc _ _ => rfl

theorem NxtEffect.x_of_not_destination {i : Instr} {s : State} {p : Proc} (h : NxtEffect i s p) {r : RegIndex}
    (hr : destination i ≠ some r) : p.x r = s.nxt.x r := by
  cases h with
  | @setsRegAndFlags rd _ pc hdest _ | @setsReg rd _ pc hdest _ =>
    have hne : r ≠ rd := fun heq => hr (heq ▸ hdest)
    exact (Proc.x_setX _ _ _ _).trans (if_neg fun hand => hne hand.1)
  | setsPcOnly pc _ _ => rfl

end Sys2Proof.Machine
end

section
/-! Family `other`, the statements about instructions and steps. -/

namespace Sys2Proof.Machine

/-! ### A multiple of 4 plus an offset (R26, R99, R100) -/

theorem toNat_mod_four_of_toInt {x : DWord} {k : Int} (h : x.toInt = 4 * k) : x.toNat % 4 = 0 := by
  rw [BitVec.toInt_eq_toNat_cond] at h
  split at h <;> omega

theorem aligned_add {a b : Addr} (ha : a.toNat % 4 = 0) (hb : b.toNat % 4 = 0) : (a + b).toNat % 4 = 0 := by
  rw [BitVec.toNat_add]
  omega

theorem exec_pc_aligned {i : Instr} {s t : State} (h : exec i s = .next t) (hbr : ∀ rn, i ≠ .br rn)
    (hpc : s.cur.pc.toNat % 4 = 0) : t.nxt.pc.toNat % 4 = 0 := by
  have hnext : (s.cur.pc + 4#64).toNat % 4 = 0 := aligned_add hpc (by decide)
  cases i with
  | br rn => exact absurd rfl (hbr rn)
  | b imm26 =>
    obtain rfl := Host.Outcome.next.inj h
    exact aligned_add hpc (toNat_mod_four_of_toInt (branchOffset_toInt imm26))
  | bEq imm19 | bNe imm19 | bGe imm19 | bLt imm19 | bGt imm19 | bLe imm19 =>
    have htaken : (s.cur.pc + condOffset imm19).toNat % 4 = 0 :=
      aligned_add hpc (toNat_mod_four_of_toInt (condOffset_toInt imm19))
    simp only [exec_bEq, exec_bNe, exec_bGe, exec_bLt, exec_bGt, exec_bLe] at h
    obtain rfl := Host.Outcome.next.inj h
    rw [State.emit_nxt, State.setPc_nxt_pc]
    split_ifs
    · exact htaken
    · exact hnext
  | bUnrecognised cond imm19 =>
    obtain rfl := Host.Outcome.next.inj h
    exact hnext
  | adds | subs | addis | subis | ands | eor | orr | lsl | lsr | movz
  | stur | sturb | sturh | ldur | ldurb | ldurh | hlt =>
    rw [exec_pc_of_not_ownsPc h rfl]
    exact hnext

/-! ### Memory seen through its list and parameters -/

theorem State.byteAt_congr {s t : State} (hmem : t.mem = s.mem) (a : Addr) : t.byteAt a = s.byteAt a := by
  rw [State.byteAt, State.byteAt, hmem]

theorem State.wordAt_congr {s t : State} (hmem : t.mem = s.mem) (hcfg : t.cfg = s.cfg) (a : Addr) :
    t.wordAt a = s.wordAt a := by
  simp only [State.wordAt, State.byteAt_congr hmem, hcfg]

/-! ### Another next record (R33) -/

/-- `s` with `p` as its next record. -/
def State.withNxt (s : State) (p : Proc) : State := { s with nxt := p }

/-- Two completions of `i` agree on all that `i` writes. -/
structure WritesAlike (i : Instr) (t u : State) : Prop where
  mem : u.mem = t.mem
  running : u.running = t.running
  out : u.out = t.out
  pc : u.nxt.pc = t.nxt.pc
  dest : ∀ r, destination i = some r → u.nxt.x r = t.nxt.x r
  flags : setsFlags i = true → u.nxt.z = t.nxt.z ∧ u.nxt.n = t.nxt.n

/-- Two outcomes of `i` agree on all that `i` writes: alike completions, or the same fault. -/
inductive OutcomesAlike (i : Instr) : Result → Result → Prop where
  | next {t u : State} (h : WritesAlike i t u) : OutcomesAlike i (.next t) (.next u)
  | fault (f : Fault) : OutcomesAlike i (.fault f) (.fault f)

theorem OutcomesAlike.of_next {i : Instr} {t : State} {r : Result} (h : OutcomesAlike i (.next t) r) :
    ∃ u, r = .next u ∧ WritesAlike i t u := by
  cases h with
  | next hw => exact ⟨_, rfl, hw⟩

theorem OutcomesAlike.of_fault {i : Instr} {f : Fault} {r : Result} (h : OutcomesAlike i (.fault f) r) :
    r = .fault f := by
  cases h with
  | fault => rfl

/-- What a register write puts into its register does not depend on the record it is done in. -/
theorem Proc.setX_x_self (p q : Proc) (r : RegIndex) (v : DWord) : (p.setX r v).x r = (q.setX r v).x r := by
  by_cases h : r = xzr
  · subst h; simp
  · rw [Proc.x_setX, Proc.x_setX, if_pos ⟨rfl, h⟩, if_pos ⟨rfl, h⟩]

section
variable {i : Instr} (s : State) (p : Proc)

theorem aluSetFlags_alike {rd : RegIndex} (hdest : destination i = some rd) (id : TableInstr) (r : DWord) :
    OutcomesAlike i (aluSetFlags id rd r s) (aluSetFlags id rd r (s.withNxt p)) := by
  refine .next ⟨rfl, rfl, rfl, rfl, fun j hj => ?_, fun _ => ⟨rfl, rfl⟩⟩
  obtain rfl := Option.some.inj (hdest.symm.trans hj)
  exact Proc.setX_x_self _ _ _ _

theorem setX_finish_alike {rd : RegIndex} (hdest : destination i = some rd) (hflags : setsFlags i = false) (v : DWord)
    (e : Diag) : OutcomesAlike i ((s.setX rd v).finish e) (((s.withNxt p).setX rd v).finish e) := by
  refine .next ⟨rfl, rfl, rfl, rfl, fun j hj => ?_, fun hset => by simp [hflags] at hset⟩
  obtain rfl := Option.some.inj (hdest.symm.trans hj)
  exact Proc.setX_x_self _ _ _ _

theorem finishAt_alike (hdest : destination i = none) (hflags : setsFlags i = false) (a : Addr) (e : Diag) :
    OutcomesAlike i (s.finishAt a e) ((s.withNxt p).finishAt a e) :=
  .next ⟨rfl, rfl, rfl, rfl, fun j hj => by simp [hdest] at hj, fun hset => by simp [hflags] at hset⟩

theorem withRead_alike (a : Addr) {k : Word → State → Result}
    (hk : ∀ v t, OutcomesAlike i (k v t) (k v (t.withNxt p))) :
    OutcomesAlike i (s.withRead a k) ((s.withNxt p).withRead a k) := by
  cases hadm : admits s.cfg a with
  | true =>
    rw [State.withRead_of_admits hadm, State.withRead_of_admits (s := s.withNxt p) hadm]
    exact hk _ _
  | false =>
    rw [State.withRead_of_not hadm, State.withRead_of_not (s := s.withNxt p) hadm]
    exact .fault _

theorem withWrite_alike (a : Addr) (v : Word) {k : State → Result}
    (hk : ∀ t, OutcomesAlike i (k t) (k (t.withNxt p))) :
    OutcomesAlike i (s.withWrite a v k) ((s.withNxt p).withWrite a v k) := by
  cases hadm : admits s.cfg a with
  | true =>
    rw [State.withWrite_of_admits hadm, State.withWrite_of_admits (s := s.withNxt p) hadm]
    exact hk _
  | false =>
    rw [State.withWrite_of_not hadm, State.withWrite_of_not (s := s.withNxt p) hadm]
    exact .fault _

theorem storeSpliced_alike (hdest : destination i = none) (hflags : setsFlags i = false) (id : TableInstr) (ea : Addr)
    (f : Word → Word) : OutcomesAlike i (storeSpliced id ea f s) (storeSpliced id ea f (s.withNxt p)) :=
  withRead_alike s p ea fun _ t => withWrite_alike t p ea _ fun u => finishAt_alike u p hdest hflags _ _

theorem loadNarrow_alike {rt : RegIndex} (hdest : destination i = some rt) (hflags : setsFlags i = false)
    (id : TableInstr) (ea : Addr) (f : Word → DWord) :
    OutcomesAlike i (loadNarrow id rt ea f s) (loadNarrow id rt ea f (s.withNxt p)) :=
  withRead_alike s p ea fun _ t => setX_finish_alike t p hdest hflags _ _

end

/-- An instruction does the same whatever the next record holds. -/
theorem exec_withNxt_alike (i : Instr) (s : State) (p : Proc) :
    OutcomesAlike i (exec i s) (exec i (s.withNxt p)) := by
  cases i with
  | adds | subs | addis | subis | ands | lsl => exact aluSetFlags_alike s p rfl _ _
  | eor | orr | lsr | movz => exact setX_finish_alike s p rfl rfl _ _
  | stur => exact withWrite_alike s p _ _ fun t => finishAt_alike t p rfl rfl _ _
  | sturb rt rn imm9 =>
    exact storeSpliced_alike s p rfl rfl .sturb (effectiveAddress s rn imm9) fun old => spliceByte old (s.x rt)
  | sturh rt rn imm9 =>
    exact storeSpliced_alike s p rfl rfl .sturh (effectiveAddress s rn imm9) fun old => spliceHalf old (s.x rt)
  | ldur rt rn imm9 =>
    simp only [exec, execLdur]
    exact withRead_alike s p (effectiveAddress s rn imm9) fun lo t =>
      withRead_alike t p (effectiveAddress s rn imm9 + 4#64) fun hi u =>
        setX_finish_alike u p rfl rfl (hi ++ lo) (.decoded (.table .ldur))
  | ldurb rt rn imm9 =>
    exact loadNarrow_alike s p rfl rfl .ldurb (effectiveAddress s rn imm9)
      fun v => widen8 s.cfg.narrowLoadExt (v.extractLsb' 0 8)
  | ldurh rt rn imm9 =>
    exact loadNarrow_alike s p rfl rfl .ldurh (effectiveAddress s rn imm9)
      fun v => widen16 s.cfg.narrowLoadExt (v.extractLsb' 0 16)
  | hlt => exact finishAt_alike s.clearRunning p rfl rfl _ _
  | b | br | bEq | bNe | bGe | bLt | bGt | bLe | bUnrecognised => exact finishAt_alike s p rfl rfl _ _

/-! ### The statements -/

/-- Settles O48: the commit makes the copies agree, the effect on the next record leaves slot 31, and the admitted accesses
keep memory canonical and in the window. -/
theorem stepKeepsInvariant : Obligations.StepKeepsInvariant := by
  intro s t hinv h
  have hcfg := step_cfg h
  have htable : t.cfg.opcodeTable.isMap = true := hcfg ▸ hinv.table
  refine ⟨?_, hcfg⟩
  obtain ⟨u, rfl, ⟨i, -, hu⟩ | ⟨-, hu⟩⟩ := step_next_cases h
  · have hmem := (exec_completed hu).mem
    have hadm := exec_next_iff.mp ⟨u, hu⟩
    refine ⟨rfl, (exec_nxtEffect hu).slot31.trans hinv.zeroSlot, ?_, ?_, htable⟩
    · rw [State.commit_mem, hmem]
      exact Memory.wf_afterAccesses hinv.memWf
    · rw [hcfg, State.commit_mem, hmem]
      exact Memory.within_afterAccesses hinv.memWithin hadm
  · obtain rfl := Host.Outcome.next.inj hu
    exact ⟨rfl, hinv.zeroSlot, hinv.memWf, hinv.memWithin, htable⟩

/-- Settles O30: alike outcomes, at the one that is given. -/
theorem readsSeeOnlyTheCurrentRecord : Obligations.ReadsSeeOnlyTheCurrentRecord := by
  intro i s p
  have halike := exec_withNxt_alike i s p
  refine ⟨fun t ht => ⟨exec_cur ht, ?_⟩, fun f hf => ?_⟩
  · rw [ht] at halike
    obtain ⟨u, hu, hw⟩ := halike.of_next
    exact ⟨u, hu, hw.mem, hw.running, hw.out, hw.pc, hw.dest, hw.flags⟩
  · rw [hf] at halike
    exact halike.of_fault

/-- Settles O31: the run signal of a completed instruction; a step's is that of the instruction it ran. -/
theorem onlyHltWritesRunning : Obligations.OnlyHltWritesRunning := by
  refine ⟨fun i s t h => ⟨(exec_completed h).running, (exec_completed h).halted⟩, fun w s t h => ?_, fun s t h _ => ?_⟩
  · obtain rfl := Host.Outcome.next.inj h
    rfl
  · exact ((State.live_iff s).mp (step_next.mp h).1).1

/-- Settles O33: the PC of the fetched instruction, or of the unknown one, which is the next word. -/
theorem onlyBrMisalignsThePc : Obligations.OnlyBrMisalignsThePc := by
  intro s t h hpc hbr
  obtain ⟨u, rfl, ⟨i, hi, hu⟩ | ⟨-, hu⟩⟩ := step_next_cases h
  · exact exec_pc_aligned hu (fun rn hbr' => hbr rn (hbr' ▸ hi)) hpc
  · rw [State.commit_cur, execUnknown_pc hu]
    exact aligned_add hpc (by decide)

/-- Settles O34: the memory of a completed instruction, with no write or with the one of a store. -/
theorem memoryChangesOnlyAtTheStoredWord : Obligations.MemoryChangesOnlyAtTheStoredWord := by
  intro i s t hwf h
  have hmem := (exec_completed h).mem
  refine ⟨fun hnone a => ?_, fun a hsome b h0 h1 h2 h3 => ?_⟩
  · rw [afterAccesses_of_storeAddress_none hnone] at hmem
    exact State.byteAt_congr hmem a
  · obtain ⟨v, hv⟩ := afterAccesses_of_storeAddress_some hsome s.cfg.endian s.mem
    have hstored : t.mem = (s.storeWord a v).mem := hmem.trans hv
    rw [State.byteAt_congr hstored, State.byteAt_storeWord_of_ne hwf h0 h1 h2 h3]

/-- Settles O38: memory after the STUR is the stored word's, and the next PC is where it lies. -/
theorem storeIsSeenByTheNextFetch : Obligations.StoreIsSeenByTheNextFetch := by
  intro s t rt rn imm9 hwf h hi hea
  obtain ⟨u, rfl, ⟨i, hi', hu⟩ | ⟨hnone, -⟩⟩ := step_next_cases h
  · obtain rfl := Option.some.inj (hi.symm.trans hi')
    have hpc : u.nxt.pc = s.cur.pc + 4#64 := exec_pc_of_not_ownsPc (s := s.afterFetch) hu rfl
    have hmem : u.mem = (s.storeWord (effectiveAddress s rn imm9) (storedWord (s.x rt))).mem := (exec_completed hu).mem
    refine ⟨hpc, ?_⟩
    rw [fetchedWord, State.commit_cur, hpc, State.commit_wordAt, ← hea, State.wordAt_congr hmem (exec_completed hu).cfg,
      State.wordAt_storeWord hwf]
    rfl
  · rw [hi] at hnone; cases hnone

/-- Settles O41: the cycle starts with no event, and the instruction it runs adds its own. -/
theorem everyCompletedCycleEmitsOneEvent : Obligations.EveryCompletedCycleEmitsOneEvent := by
  intro s t h
  obtain ⟨u, rfl, ⟨i, hi, hu⟩ | ⟨hnone, hu⟩⟩ := step_next_cases h
  · have hdiag : u.out.diag = [eventOf i] := (exec_completed hu).diag
    refine ⟨fun hnone => ?_, fun cond imm19 hi' => ?_, fun j hj hne => ?_⟩
    · rw [hi] at hnone; cases hnone
    · obtain rfl := Option.some.inj (hi.symm.trans hi')
      exact hdiag
    · obtain rfl := Option.some.inj (hi.symm.trans hj)
      exact ⟨hdiag, eventOf_decoded hne⟩
  · obtain rfl := Host.Outcome.next.inj hu
    refine ⟨fun _ => rfl, fun cond imm19 hi => ?_, fun i hi => ?_⟩
    · rw [hnone] at hi; cases hi
    · rw [hnone] at hi; cases hi

/-- Settles O42: `step_completes` where no access of the cycle is refused, `step_faults` at the first one that is. -/
theorem stepFaultsAtFirstInadmissibleAccess : Obligations.StepFaultsAtFirstInadmissibleAccess := by
  intro s hl
  cases hfirst : (cycleAccesses s).find? (fun b => !admits s.cfg b.addr) with
  | none =>
    have hadm : ∀ b ∈ cycleAccesses s, admits s.cfg b.addr = true := by simpa using hfirst
    obtain ⟨t, ht⟩ := step_completes hl hadm
    have hfree : FaultFree s := fun f hf => by rw [ht] at hf; cases hf
    refine ⟨iff_of_true hfree hadm, fun _ => ⟨t, ht⟩, fun a => iff_of_false (hfree _) ?_⟩
    rintro ⟨b, hb, -⟩
    cases hb
  | some b =>
    have hfault := step_faults hl hfirst
    have hnotfree : ¬FaultFree s := fun hfree => hfree _ hfault
    refine ⟨iff_of_false hnotfree fun hadm => ?_, fun hfree => absurd hfree hnotfree, fun a => ?_⟩
    · have hb := List.find?_some hfirst
      simp [hadm b (List.mem_of_find?_eq_some hfirst)] at hb
    · simp [hfault]

/-- Settles O43: `exec_completes` and `exec_faults` between them answer for every list of accesses. -/
theorem instructionsOnlyStopAtInadmissibleAccess : Obligations.InstructionsOnlyStopAtInadmissibleAccess := by
  intro i s
  refine ⟨exec_next_iff.symm, ?_⟩
  cases hfirst : (dataAccesses i s).find? (fun b => !admits s.cfg b.addr) with
  | none =>
    obtain ⟨t, ht⟩ := exec_completes (i := i) (s := s) (by simpa using hfirst)
    rw [ht]
    exact ⟨nofun, nofun⟩
  | some b =>
    have hb := List.find?_some hfirst
    rw [exec_faults hfirst]
    refine ⟨nofun, fun a ha => ⟨b, List.mem_of_find?_eq_some hfirst, ?_⟩⟩
    obtain rfl : b.addr = a := by simpa using ha
    exact ⟨rfl, by simpa using hb⟩

/-- Settles O39: the cycle of an admitted fetch, at the decoded instruction. -/
theorem stepRunsTheDecodedInstruction : Obligations.StepRunsTheDecodedInstruction := by
  intro s i hl hadm hd
  have hi : fetchedInstr s = some i := by simp only [fetchedInstr, fetchedWord, hd]
  rw [step_eq_executeWord hl hadm, executeWord_of_fetchedInstr hi]
  rfl

/-- Settles O44: the two polls ahead of the cycle. -/
theorem endedRunTakesNoStep : Obligations.EndedRunTakesNoStep := by
  refine fun s => ⟨fun htable => ?_, fun htable hrun => ?_⟩
  · simp [step, runLoopWith, htable]
  · simp [step, runLoopWith, htable, hrun]

/-- Settles O45: HLT leaves `running` false and the table as it was, so the first further step is refused. -/
theorem hltEndsTheRun : Obligations.HltEndsTheRun := by
  intro s t h hi
  have hmap : t.cfg.opcodeTable.isMap = true := step_cfg h ▸ ((State.live_iff s).mp (step_next.mp h).1).2
  obtain ⟨u, rfl, ⟨i, hi', hu⟩ | ⟨hnone, -⟩⟩ := step_next_cases h
  · obtain rfl := Option.some.inj (hi.symm.trans hi')
    have hrun : u.commit.running = false := (exec_completed hu).halted rfl
    have hstep : Sys2Proof.core.step u.commit = .refused .runEnded := (endedRunTakesNoStep u.commit).2 hmap hrun
    exact ⟨hrun, exec_pc_of_not_ownsPc (s := s.afterFetch) hu rfl, fun k => by simp only [Host.Core.run, hstep]⟩
  · rw [hi] at hnone; cases hnone

/-- Settles O47: memory is empty at reset, and the default table rises. -/
theorem resetSatisfiesInvariant : Obligations.ResetSatisfiesInvariant :=
  ⟨rfl, rfl, rfl, fun _ hc => absurd hc List.not_mem_nil, by decide⟩

end Sys2Proof.Machine
end

section
/-! Family `other`, words and instructions (`30_encoding.md`): what a decoded word can be, the rows of the default table, and
decoding after encoding and after a change of ignored bits. -/

namespace Sys2Proof

/-! ### What a word that decodes is (R82) -/

/-- A word that decodes is a B.cond word, or its dispatch finds a table instruction. -/
theorem decode_ok_cases {table : OpcodeTable} {split : ShiftSplit} {w : Word} {i : Instr}
    (h : decode table split w = .ok i) :
    (fieldHb w = 0x54#8 ∧ i = decodeBCond w) ∨
      (fieldHb w ≠ 0x54#8 ∧ ∃ t, dispatchOp11 table split w = some t ∧ i = decodeFields t w) := by
  by_cases hhb : fieldHb w = 0x54#8
  · rw [decode_bCond hhb] at h
    exact .inl ⟨hhb, (Except.ok.inj h).symm⟩
  · cases ht : dispatchOp11 table split w with
    | none => simp [decode, hhb, ht] at h
    | some t =>
      rw [decode_table hhb ht] at h
      exact .inr ⟨hhb, t, rfl, (Except.ok.inj h).symm⟩

/-- The table instruction is a shift. -/
def TableInstr.isShift : TableInstr → Bool
  | .lsl | .lsr => true
  | .adds | .subs | .addis | .subis | .ands | .eor | .orr | .movz
  | .stur | .sturb | .sturh | .ldur | .ldurb | .ldurh | .b | .br | .hlt => false

/-! ### The default table (R95) -/

theorem OpcodeTable.mem_of_find {op : BitVec 11} {t : TableInstr} :
    ∀ {table : OpcodeTable}, table.find op = some t → (op, t) ∈ table
  | [], h => by cases h
  | (op', t') :: rest, h => by
    unfold OpcodeTable.find at h
    split_ifs at h with heq
    · obtain rfl := Option.some.inj h
      exact heq ▸ List.mem_cons_self
    · exact List.mem_cons_of_mem _ (OpcodeTable.mem_of_find h)

/-- Outside `by_imms` for the shifts, the default table alone decides (R82, R86). -/
theorem decode_of_default_find {split : ShiftSplit} {w : Word} {t : TableInstr}
    (hfind : defaultOpcodeTable.find (fieldOp11 w) = some t) (hsplit : split = .byOpcode ∨ t.isShift = false) :
    decode defaultOpcodeTable split w = .ok (decodeFields t w) := by
  have hhb : fieldHb w ≠ 0x54#8 := by
    rw [fieldHb_eq]
    have hrow : ∀ e ∈ defaultOpcodeTable, e.1.extractLsb' 3 8 ≠ 0x54#8 := by decide
    exact hrow (fieldOp11 w, t) (OpcodeTable.mem_of_find hfind)
  refine decode_table hhb ((dispatchOp11_eq_find (hsplit.imp_right fun hshift => ?_)).trans hfind)
  have hrow : ∀ e ∈ defaultOpcodeTable, e.2.isShift = false → e.1 ≠ 0x69A#11 ∧ e.1 ≠ 0x69B#11 := by decide
  exact hrow (fieldOp11 w, t) (OpcodeTable.mem_of_find hfind) hshift

/-- Where the default table finds an instruction, it decides, unless it is a shift under `by_imms`, which `imms` decides. -/
theorem dispatch_default_cases {split : ShiftSplit} {w : Word} {t : TableInstr}
    (h : dispatchOp11 defaultOpcodeTable split w = some t) :
    (defaultOpcodeTable.find (fieldOp11 w) = some t ∧ (split = .byOpcode ∨ t.isShift = false)) ∨
      (split = .byImms ∧ fieldOp11 w ∈ [0x69A#11, 0x69B#11] ∧ t = if fieldImms w = 63#6 then .lsr else .lsl) := by
  cases split with
  | byOpcode =>
    rw [dispatchOp11_eq_find (.inl rfl)] at h
    exact .inl ⟨h, .inl rfl⟩
  | byImms =>
    by_cases hop : fieldOp11 w ∈ [0x69A#11, 0x69B#11]
    · have hfind : defaultOpcodeTable.find (fieldOp11 w) ≠ none := by
        obtain hlsr | hlsl := List.mem_pair.mp hop
        · rw [hlsr]; decide
        · rw [hlsl]; decide
      rw [dispatchOp11_byImms (List.mem_pair.mp hop) hfind, ← apply_ite some] at h
      exact .inr ⟨rfl, hop, (Option.some.inj h).symm⟩
    · have hne : fieldOp11 w ≠ 0x69A#11 ∧ fieldOp11 w ≠ 0x69B#11 := by simpa using hop
      rw [dispatchOp11_eq_find (.inr hne)] at h
      have hrow : ∀ e ∈ defaultOpcodeTable, e.1 ∉ [0x69A#11, 0x69B#11] → e.2.isShift = false := by decide
      exact .inl ⟨h, .inr (hrow (fieldOp11 w, t) (OpcodeTable.mem_of_find h) hop)⟩

/-! ### Decoding an encoded instruction (R84 to R91) -/

open Laws in
/-- `OpcodeRow`'s statement, for every instruction. -/
theorem opcodeRow_statement (i : Instr) : OpcodeRow.Statement i := by
  cases i with
  | adds => exact OpcodeRow.adds _ _ _
  | subs => exact OpcodeRow.subs _ _ _
  | addis => exact OpcodeRow.addis _ _ _
  | subis => exact OpcodeRow.subis _ _ _ _
  | ands => exact OpcodeRow.ands _ _ _
  | eor => exact OpcodeRow.eor _ _ _
  | orr => exact OpcodeRow.orr _ _ _
  | lsl => exact OpcodeRow.lsl _ _ _
  | lsr => exact OpcodeRow.lsr _ _ _
  | movz => exact OpcodeRow.movz _ _ _
  | stur => exact OpcodeRow.stur _ _ _
  | sturb => exact OpcodeRow.sturb _ _ _
  | sturh => exact OpcodeRow.sturh _ _ _
  | ldur => exact OpcodeRow.ldur _ _ _
  | ldurb => exact OpcodeRow.ldurb _ _ _
  | ldurh => exact OpcodeRow.ldurh _ _ _
  | b => exact OpcodeRow.b _
  | br => exact OpcodeRow.br _
  | hlt => exact OpcodeRow.hlt
  | bEq => exact OpcodeRow.bEq _
  | bNe => exact OpcodeRow.bNe _
  | bGe => exact OpcodeRow.bGe _
  | bLt => exact OpcodeRow.bLt _
  | bGt => exact OpcodeRow.bGt _
  | bLe => exact OpcodeRow.bLe _
  | bUnrecognised => exact OpcodeRow.bUnrecognised _ _

open Laws in
/-- The default table finds an instruction's own row for the word it encodes to. -/
theorem default_find_encode {i : Instr} {t : TableInstr} (hrow : OpcodeRow.row i = some t)
    (hwf : i.wellFormed .byOpcode = true) : defaultOpcodeTable.find (fieldOp11 (encode i)) = some t := by
  have h := opcodeRow_statement i hwf
  rw [hrow] at h
  exact h.2

open Laws in
/-- An instruction of a row that is no shift is found by its row, and the row's fields are its operands. -/
theorem decode_encode_of_row {split : ShiftSplit} {i : Instr} {t : TableInstr} (hrow : OpcodeRow.row i = some t)
    (hwf : i.wellFormed .byOpcode = true) (hshift : t.isShift = false) (hfields : decodeFields t (encode i) = i) :
    decode defaultOpcodeTable split (encode i) = .ok i := by
  rw [decode_of_default_find (default_find_encode hrow hwf) (.inr hshift), hfields]

/-- The primary opcode of an LSR word is one of the two shift opcodes, by `immr[5]`. -/
theorem fieldOp11_encode_lsr_mem (rd rn : RegIndex) (immr : BitVec 6) :
    fieldOp11 (encode (.lsr rd rn immr)) ∈ [0x69A#11, 0x69B#11] := by
  have hbit : ∀ b : BitVec 1, 0x34D#10 ++ b ∈ [0x69A#11, 0x69B#11] := by decide
  rw [fieldOp11_encode_lsr]
  exact hbit _

theorem decode_encode {split : ShiftSplit} {i : Instr} (hwf : i.wellFormed split = true) :
    decode defaultOpcodeTable split (encode i) = .ok i := by
  cases i with
  | adds | subs | ands | eor | orr | stur | sturb | sturh | ldur | ldurb | ldurh =>
    exact decode_encode_of_row rfl rfl rfl (by simp [encode, decodeFields])
  | addis | movz | b | br | hlt => exact decode_encode_of_row rfl rfl rfl (by simp [decodeFields])
  | subis => exact decode_encode_of_row rfl hwf rfl (by simp [decodeFields])
  | lsl rd rn imms =>
    have hfields : decodeFields .lsl (encode (.lsl rd rn imms)) = .lsl rd rn imms := by simp [decodeFields]
    cases split with
    | byOpcode => rw [decode_default_byOpcode (t := .lsl) (fieldOp11_encode_lsl rd rn imms) (by decide), hfields]
    | byImms =>
      have hne : imms ≠ 63#6 := by simpa [Instr.wellFormed] using hwf
      rw [decode_default_byImms (by simp), fieldImms_encode_lsl, if_neg hne, hfields]
  | lsr rd rn immr =>
    have hfields : decodeFields .lsr (encode (.lsr rd rn immr)) = .lsr rd rn immr := by simp [decodeFields]
    cases split with
    | byOpcode =>
      rw [decode_of_default_find (t := .lsr) (default_find_encode rfl hwf) (.inl rfl), hfields]
    | byImms =>
      rw [decode_default_byImms (fieldOp11_encode_lsr_mem rd rn immr), fieldImms_encode_lsr, if_pos rfl, hfields]
  | bEq imm19 =>
    rw [encode, decode_bCond (fieldHb_encodeCB _ _), decodeBCond_bEq (fieldCond_encodeCB _ _), fieldImm19_encodeCB]
  | bNe imm19 =>
    rw [encode, decode_bCond (fieldHb_encodeCB _ _), decodeBCond_bNe (fieldCond_encodeCB _ _), fieldImm19_encodeCB]
  | bGe imm19 =>
    rw [encode, decode_bCond (fieldHb_encodeCB _ _), decodeBCond_bGe (fieldCond_encodeCB _ _), fieldImm19_encodeCB]
  | bLt imm19 =>
    rw [encode, decode_bCond (fieldHb_encodeCB _ _), decodeBCond_bLt (fieldCond_encodeCB _ _), fieldImm19_encodeCB]
  | bGt imm19 =>
    rw [encode, decode_bCond (fieldHb_encodeCB _ _), decodeBCond_bGt (fieldCond_encodeCB _ _), fieldImm19_encodeCB]
  | bLe imm19 =>
    rw [encode, decode_bCond (fieldHb_encodeCB _ _), decodeBCond_bLe (fieldCond_encodeCB _ _), fieldImm19_encodeCB]
  | bUnrecognised cond imm19 =>
    have hcond : cond ∉ recognisedConds := by simpa [Instr.wellFormed] using hwf
    rw [encode, decode_bCond (fieldHb_encodeCB _ _), decodeBCond_bUnrecognised (by rwa [fieldCond_encodeCB]),
      fieldCond_encodeCB, fieldImm19_encodeCB]

/-! ### The bits of a word that are not ignored (R83) -/

/-- A field that no ignored bit lies in is the same after any change of ignored bits. -/
theorem extractLsb'_xor_and {w m k : Word} {start len : Nat} (hk : k.extractLsb' start len = 0#len) :
    (w ^^^ (m &&& k)).extractLsb' start len = w.extractLsb' start len := by
  rw [BitVec.extractLsb'_xor, BitVec.extractLsb'_and, hk, BitVec.and_zero, BitVec.xor_zero]

theorem getLsbD_eq_of_extractLsb'_eq {x y : Word} {start len j : Nat}
    (h : x.extractLsb' start len = y.extractLsb' start len) (hlo : start ≤ j) (hhi : j < start + len) :
    x.getLsbD j = y.getLsbD j := by
  have hbit := congrArg (fun z => z.getLsbD (j - start)) h
  simpa [show j - start < len by omega, show start + (j - start) = j by omega] using hbit

/-- Words that agree on fields which cover every bit outside `k` agree off `k`. A field is its start and its length. -/
theorem agree_off_of_fields {x y k : Word} (fields : List (Nat × Nat))
    (hfields : fields.Forall fun f => x.extractLsb' f.1 f.2 = y.extractLsb' f.1 f.2)
    (hcover : ∀ j < 32, k.getLsbD j = true ∨ ∃ f ∈ fields, f.1 ≤ j ∧ j < f.1 + f.2) :
    x &&& ~~~k = y &&& ~~~k := by
  refine BitVec.eq_of_getLsbD_eq fun j hj => ?_
  rw [BitVec.getLsbD_and, BitVec.getLsbD_and, BitVec.getLsbD_not]
  obtain hk | ⟨f, hf, hlo, hhi⟩ := hcover j hj
  · simp [hk]
  · rw [getLsbD_eq_of_extractLsb'_eq (List.forall_iff_forall_mem.mp hfields f hf) hlo hhi]

/-- A field inside the primary opcode of a word (R81). -/
theorem extractLsb'_of_fieldOp11 (w : Word) {start len : Nat} (h : start + len ≤ 11) :
    w.extractLsb' (21 + start) len = (fieldOp11 w).extractLsb' start len := by
  refine BitVec.eq_of_getLsbD_eq fun j hj => ?_
  have hin : start + j < 11 := by omega
  simp [fieldOp11, hj, hin, Nat.add_assoc]

/-- The lowest primary opcode of a row of the default table. -/
def firstOpcode (t : TableInstr) : BitVec 11 := ((defaultOpcodeTable.find? fun e => e.2 == t).map Prod.fst).getD 0

/-- Two words of one row agree on a field of the primary opcode that has one value in all of the row. -/
theorem row_field_agrees {x y : Word} {t : TableInstr} (hx : defaultOpcodeTable.find (fieldOp11 x) = some t)
    (hy : defaultOpcodeTable.find (fieldOp11 y) = some t) (start len : Nat)
    (hrow : ∀ e ∈ defaultOpcodeTable, e.2 = t → e.1.extractLsb' start len = (firstOpcode t).extractLsb' start len)
    (h : start + len ≤ 11 := by decide) : x.extractLsb' (21 + start) len = y.extractLsb' (21 + start) len := by
  have hbits : ∀ {w : Word}, defaultOpcodeTable.find (fieldOp11 w) = some t →
      w.extractLsb' (21 + start) len = (firstOpcode t).extractLsb' start len := fun {w} hw =>
    (extractLsb'_of_fieldOp11 w h).trans (hrow _ (OpcodeTable.mem_of_find hw) rfl)
  rw [hbits hx, hbits hy]

/-- Two words of one row with the same operands agree off the ignored bits. -/
theorem agree_off_ignored {split : ShiftSplit} {x y : Word} {t : TableInstr}
    (hx : defaultOpcodeTable.find (fieldOp11 x) = some t) (hy : defaultOpcodeTable.find (fieldOp11 y) = some t)
    (hsplit : split = .byOpcode ∨ t.isShift = false) (hfields : decodeFields t x = decodeFields t y) :
    x &&& ~~~(ignoredBits split (decodeFields t y)) = y &&& ~~~(ignoredBits split (decodeFields t y)) := by
  cases t with
  | adds | subs | ands | eor | orr =>
    have hop := row_field_agrees hx hy 0 11 (by decide)
    obtain ⟨hrd, hrn, hrm⟩ : fieldRd x = fieldRd y ∧ fieldRn x = fieldRn y ∧ fieldRm x = fieldRm y := by
      simpa [decodeFields] using hfields
    exact agree_off_of_fields (k := 0x0000FC00#32) [(21, 11), (16, 5), (5, 5), (0, 5)] ⟨hop, hrm, hrn, hrd⟩ (by decide)
  | addis =>
    have htop := row_field_agrees hx hy 1 10 (by decide)
    obtain ⟨hrd, hrn, himm⟩ : fieldRd x = fieldRd y ∧ fieldRn x = fieldRn y ∧ fieldImm12 x = fieldImm12 y := by
      simpa [decodeFields] using hfields
    exact agree_off_of_fields (k := 0#32) [(22, 10), (10, 12), (5, 5), (0, 5)] ⟨htop, himm, hrn, hrd⟩ (by decide)
  | subis =>
    have hhb := row_field_agrees hx hy 3 8 (by decide)
    obtain ⟨hrd, hrn, himm, hsh⟩ : fieldRd x = fieldRd y ∧ fieldRn x = fieldRn y ∧ fieldImm12 x = fieldImm12 y ∧
        fieldSh2 x = fieldSh2 y := by simpa [decodeFields] using hfields
    exact agree_off_of_fields (k := 0#32) [(24, 8), (22, 2), (10, 12), (5, 5), (0, 5)] ⟨hhb, hsh, himm, hrn, hrd⟩ (by decide)
  | movz =>
    have htop := row_field_agrees hx hy 2 9 (by decide)
    obtain ⟨hrd, himm, hhw⟩ : fieldRd x = fieldRd y ∧ fieldImm16 x = fieldImm16 y ∧ fieldHw x = fieldHw y := by
      simpa [decodeFields] using hfields
    exact agree_off_of_fields (k := 0#32) [(23, 9), (21, 2), (5, 16), (0, 5)] ⟨htop, hhw, himm, hrd⟩ (by decide)
  | stur | sturb | sturh | ldur | ldurb | ldurh =>
    have hop := row_field_agrees hx hy 0 11 (by decide)
    obtain ⟨hrt, hrn, himm⟩ : fieldRd x = fieldRd y ∧ fieldRn x = fieldRn y ∧ fieldImm9 x = fieldImm9 y := by
      simpa [decodeFields] using hfields
    exact agree_off_of_fields (k := 0x00000C00#32) [(21, 11), (12, 9), (5, 5), (0, 5)] ⟨hop, himm, hrn, hrt⟩ (by decide)
  | b =>
    have htop := row_field_agrees hx hy 5 6 (by decide)
    have himm : fieldImm26 x = fieldImm26 y := by simpa [decodeFields] using hfields
    exact agree_off_of_fields (k := 0#32) [(26, 6), (0, 26)] ⟨htop, himm⟩ (by decide)
  | br =>
    have hop := row_field_agrees hx hy 0 11 (by decide)
    have hrn : fieldRn x = fieldRn y := by simpa [decodeFields] using hfields
    exact agree_off_of_fields (k := 0x001FFC1F#32) [(21, 11), (5, 5)] ⟨hop, hrn⟩ (by decide)
  | hlt =>
    have hop := row_field_agrees hx hy 0 11 (by decide)
    exact agree_off_of_fields (k := 0x001FFFFF#32) [(21, 11)] hop (by decide)
  | lsl =>
    obtain rfl : split = .byOpcode := hsplit.resolve_right (by decide)
    have hop := row_field_agrees hx hy 0 11 (by decide)
    obtain ⟨hrd, hrn, himms⟩ : fieldRd x = fieldRd y ∧ fieldRn x = fieldRn y ∧ fieldImms x = fieldImms y := by
      simpa [decodeFields] using hfields
    exact agree_off_of_fields (k := 0x001F0000#32) [(21, 11), (10, 6), (5, 5), (0, 5)] ⟨hop, himms, hrn, hrd⟩ (by decide)
  | lsr =>
    obtain rfl : split = .byOpcode := hsplit.resolve_right (by decide)
    have htop := row_field_agrees hx hy 1 10 (by decide)
    obtain ⟨hrd, hrn, himmr⟩ : fieldRd x = fieldRd y ∧ fieldRn x = fieldRn y ∧ fieldImmr x = fieldImmr y := by
      simpa [decodeFields] using hfields
    exact agree_off_of_fields (k := 0x0000FC00#32) [(22, 10), (16, 6), (5, 5), (0, 5)] ⟨htop, himmr, hrn, hrd⟩ (by decide)

/-! ### A decoded instruction is well-formed -/

/-- Bit 23 of a word, the top bit of `sh2`, is bit 2 of its primary opcode (R96). -/
theorem fieldSh2_getLsbD_one (w : Word) : (fieldSh2 w).getLsbD 1 = (fieldOp11 w).getLsbD 2 := by
  simp [fieldSh2, fieldOp11]

theorem wellFormed_of_default_find {split : ShiftSplit} {w : Word} {t : TableInstr}
    (hfind : defaultOpcodeTable.find (fieldOp11 w) = some t) (hsplit : split = .byOpcode ∨ t.isShift = false) :
    (decodeFields t w).wellFormed split = true := by
  have hmem := OpcodeTable.mem_of_find hfind
  cases t with
  | subis =>
    have hrow : ∀ e ∈ defaultOpcodeTable, e.2 = .subis → e.1.getLsbD 2 = false := by decide
    simp only [decodeFields, Instr.wellFormed, fieldSh2_getLsbD_one, hrow _ hmem rfl, Bool.not_false]
  | lsl =>
    obtain rfl : split = .byOpcode := hsplit.resolve_right (by decide)
    rfl
  | lsr =>
    obtain rfl : split = .byOpcode := hsplit.resolve_right (by decide)
    have hrow : ∀ e ∈ defaultOpcodeTable, e.2 = .lsr → e.1.getLsbD 0 = false := by decide
    have hmsb : (fieldImmr w).getLsbD 5 = false := by
      rw [← hrow _ hmem rfl, ← fieldImmr_msb, BitVec.msb_eq_getLsbD_last]
    simp only [decodeFields, Instr.wellFormed, hmsb, Bool.not_false, Bool.or_true]
  | adds | subs | addis | ands | eor | orr | movz | stur | sturb | sturh | ldur | ldurb | ldurh | b | br | hlt => rfl

theorem wellFormed_decodeBCond (split : ShiftSplit) (w : Word) : (decodeBCond w).wellFormed split = true := by
  unfold decodeBCond
  split_ifs with hEq hNe hGe hLt hGt hLe
  case neg => simp [Instr.wellFormed, recognisedConds, hEq, hNe, hGe, hLt, hGt, hLe]
  all_goals rfl

/-! ### Encoding a decoded word (R83) -/

theorem encode_decodeBCond (w : Word) : encode (decodeBCond w) = encodeCB (fieldCond w) (fieldImm19 w) := by
  unfold decodeBCond
  split_ifs with hEq hNe hGe hLt hGt hLe <;> simp only [encode, *]

theorem ignoredBits_decodeBCond (split : ShiftSplit) (w : Word) : ignoredBits split (decodeBCond w) = 0x00000010#32 := by
  unfold decodeBCond
  split_ifs <;> rfl

/-- A B.cond word agrees off bit 4 with the word of its code and offset. -/
theorem encodeCB_agrees {w : Word} (hhb : fieldHb w = 0x54#8) :
    encodeCB (fieldCond w) (fieldImm19 w) &&& ~~~0x00000010#32 = w &&& ~~~0x00000010#32 :=
  agree_off_of_fields [(24, 8), (5, 19), (0, 4)]
    ⟨(fieldHb_encodeCB _ _).trans hhb.symm, fieldImm19_encodeCB _ _, fieldCond_encodeCB _ _⟩ (by decide)

/-- A word has one of the two shift opcodes exactly when its top ten bits are theirs (R86). -/
theorem fieldOp11_mem_shifts_iff (w : Word) :
    fieldOp11 w ∈ [0x69A#11, 0x69B#11] ↔ w.extractLsb' 22 10 = 0x34D#10 := by
  have hop : fieldOp11 w = w.extractLsb' 22 10 ++ w.extractLsb' 21 1 := by
    rw [BitVec.extractLsb'_append_extractLsb'_eq_extractLsb' (by rfl)]
    rfl
  have hmem : ∀ b : BitVec 1, 0x34D#10 ++ b ∈ [0x69A#11, 0x69B#11] := by decide
  refine ⟨fun h => ?_, fun h => ?_⟩
  · rw [extractLsb'_of_fieldOp11 w (start := 1) (by decide)]
    obtain hlsr | hlsl := List.mem_pair.mp h
    · rw [hlsr]; decide
    · rw [hlsl]; decide
  · rw [hop, h]
    exact hmem _

/-- Under `by_imms` the encoding of a decoded shift agrees with its word off the bits that neither shift reads. -/
theorem shift_agrees_byImms {w : Word} (hop : fieldOp11 w ∈ [0x69A#11, 0x69B#11]) :
    encode (.lsl (fieldRd w) (fieldRn w) (fieldImms w)) &&& ~~~0x003F0000#32 = w &&& ~~~0x003F0000#32 ∧
      (fieldImms w = 63#6 → encode (.lsr (fieldRd w) (fieldRn w) (fieldImmr w)) &&& ~~~0#32 = w &&& ~~~0#32) := by
  have htop := (fieldOp11_mem_shifts_iff w).mp hop
  have hlsl := (fieldOp11_mem_shifts_iff (encode (.lsl (fieldRd w) (fieldRn w) (fieldImms w)))).mp (by simp)
  have hlsr := (fieldOp11_mem_shifts_iff _).mp (fieldOp11_encode_lsr_mem (fieldRd w) (fieldRn w) (fieldImmr w))
  refine ⟨agree_off_of_fields [(22, 10), (10, 6), (5, 5), (0, 5)] ?_ (by decide), fun h63 =>
    agree_off_of_fields [(22, 10), (16, 6), (10, 6), (5, 5), (0, 5)] ?_ (by decide)⟩
  · exact ⟨hlsl.trans htop.symm, fieldImms_encode_lsl _ _ _, fieldRn_encode_lsl _ _ _, fieldRd_encode_lsl _ _ _⟩
  · exact ⟨hlsr.trans htop.symm, fieldImmr_encode_lsr _ _ _, (fieldImms_encode_lsr _ _ _).trans h63.symm,
      fieldRn_encode_lsr _ _ _, fieldRd_encode_lsr _ _ _⟩

theorem row_decodeFields (t : TableInstr) (w : Word) : Laws.OpcodeRow.row (decodeFields t w) = some t := by
  cases t <;> rfl

theorem decodeFields_encode_decodeFields {split : ShiftSplit} {w : Word} {t : TableInstr}
    (hfind : defaultOpcodeTable.find (fieldOp11 w) = some t) (hsplit : split = .byOpcode ∨ t.isShift = false) :
    defaultOpcodeTable.find (fieldOp11 (encode (decodeFields t w))) = some t ∧
      decodeFields t (encode (decodeFields t w)) = decodeFields t w := by
  have hfind' := default_find_encode (row_decodeFields t w) (wellFormed_of_default_find hfind (.inl rfl))
  have hdecode := decode_of_default_find hfind' hsplit
  rw [decode_encode (wellFormed_of_default_find hfind hsplit)] at hdecode
  exact ⟨hfind', (Except.ok.inj hdecode).symm⟩

/-! ### Decoding after a change of ignored bits (R83) -/

/-- The change reaches neither the primary opcode nor an operand. -/
theorem fields_change_ignored {split : ShiftSplit} {t : TableInstr} (hsplit : split = .byOpcode ∨ t.isShift = false)
    (w m : Word) :
    fieldOp11 (w ^^^ (m &&& ignoredBits split (decodeFields t w))) = fieldOp11 w ∧
      decodeFields t (w ^^^ (m &&& ignoredBits split (decodeFields t w))) = decodeFields t w := by
  cases t with
  | lsl | lsr =>
    obtain rfl : split = .byOpcode := hsplit.resolve_right (by decide)
    simp (disch := decide) only [decodeFields, ignoredBits, fieldOp11, fieldRd, fieldRn, fieldImms, fieldImmr,
      extractLsb'_xor_and, and_self]
  | adds | subs | ands | eor | orr | addis | subis | movz | stur | sturb | sturh | ldur | ldurb | ldurh | b | br | hlt =>
    simp (disch := decide) only [decodeFields, ignoredBits, fieldOp11, fieldRd, fieldRn, fieldRm, fieldImm12, fieldSh2,
      fieldImm16, fieldHw, fieldImm9, fieldImm26, extractLsb'_xor_and, and_self]

theorem decodeBCond_change_ignored {w : Word} (hhb : fieldHb w = 0x54#8) (m : Word) :
    fieldHb (w ^^^ (m &&& 0x00000010#32)) = 0x54#8 ∧ decodeBCond (w ^^^ (m &&& 0x00000010#32)) = decodeBCond w := by
  have hhb' : fieldHb (w ^^^ (m &&& 0x00000010#32)) = fieldHb w := extractLsb'_xor_and (by decide)
  have hcond : fieldCond (w ^^^ (m &&& 0x00000010#32)) = fieldCond w := extractLsb'_xor_and (by decide)
  have himm : fieldImm19 (w ^^^ (m &&& 0x00000010#32)) = fieldImm19 w := extractLsb'_xor_and (by decide)
  exact ⟨hhb'.trans hhb, by simp only [decodeBCond, hcond, himm]⟩

/-- Under `by_imms` bit 21 is no operand of LSL, and the two opcodes that differ in it are both the shifts'. -/
theorem decode_lsl_change_byImms {w : Word} (hop : fieldOp11 w ∈ [0x69A#11, 0x69B#11]) (h63 : fieldImms w ≠ 63#6)
    (m : Word) : decode defaultOpcodeTable .byImms (w ^^^ (m &&& 0x003F0000#32)) = .ok (decodeFields .lsl w) := by
  have himms : fieldImms (w ^^^ (m &&& 0x003F0000#32)) = fieldImms w := extractLsb'_xor_and (by decide)
  have hrn : fieldRn (w ^^^ (m &&& 0x003F0000#32)) = fieldRn w := extractLsb'_xor_and (by decide)
  have hrd : fieldRd (w ^^^ (m &&& 0x003F0000#32)) = fieldRd w := extractLsb'_xor_and (by decide)
  have hop' : fieldOp11 (w ^^^ (m &&& 0x003F0000#32)) ∈ [0x69A#11, 0x69B#11] := by
    rw [fieldOp11_mem_shifts_iff, extractLsb'_xor_and (by decide)]
    exact (fieldOp11_mem_shifts_iff w).mp hop
  rw [decode_default_byImms hop', himms, if_neg h63]
  simp only [decodeFields, hrd, hrn, himms]

/-! ### The word an assembler writes for a shift (R104) -/

section
variable (immr imms : BitVec 6) (rn rd : RegIndex)
open Machine

theorem fieldRd_assembledShift : fieldRd (assembledShift immr imms rn rd) = rd := by
  unfold fieldRd assembledShift
  rw [BitVec.extractLsb'_append_eq_of_add_le (by decide)]
  exact BitVec.extractLsb'_eq_self

theorem fieldRn_assembledShift : fieldRn (assembledShift immr imms rn rd) = rn := by
  unfold fieldRn assembledShift
  rw [BitVec.extractLsb'_append_eq_of_le (by decide), BitVec.extractLsb'_append_eq_of_add_le (by decide)]
  exact BitVec.extractLsb'_eq_self

theorem fieldImms_assembledShift : fieldImms (assembledShift immr imms rn rd) = imms := by
  unfold fieldImms assembledShift
  rw [BitVec.extractLsb'_append_eq_of_le (by decide), BitVec.extractLsb'_append_eq_of_le (by decide),
    BitVec.extractLsb'_append_eq_of_add_le (by decide)]
  exact BitVec.extractLsb'_eq_self

theorem fieldImmr_assembledShift : fieldImmr (assembledShift immr imms rn rd) = immr := by
  unfold fieldImmr assembledShift
  rw [BitVec.extractLsb'_append_eq_of_le (by decide), BitVec.extractLsb'_append_eq_of_le (by decide),
    BitVec.extractLsb'_append_eq_of_le (by decide), BitVec.extractLsb'_append_eq_of_add_le (by decide)]
  exact BitVec.extractLsb'_eq_self

/-- Bit 21, `immr[5]`, makes the primary opcode LSL's or LSR's (R101). -/
theorem fieldOp11_assembledShift :
    fieldOp11 (assembledShift immr imms rn rd) = if immr.toNat < 32 then 0x69A#11 else 0x69B#11 := by
  have hop : fieldOp11 (assembledShift immr imms rn rd) = 0x34D#10 ++ immr.extractLsb' 5 1 := by
    unfold fieldOp11 assembledShift
    rw [BitVec.extractLsb'_append_eq_of_le (by decide), BitVec.extractLsb'_append_eq_of_le (by decide),
      BitVec.extractLsb'_append_eq_of_le (by decide)]
    exact extract_across (m := 1) 0x34D#10 immr rfl (by decide)
  have hbit : ∀ x : BitVec 6, 0x34D#10 ++ x.extractLsb' 5 1 = if x.toNat < 32 then 0x69A#11 else 0x69B#11 := by decide
  rw [hop, hbit]

theorem decode_byOpcode_assembledShift : decode defaultOpcodeTable .byOpcode (assembledShift immr imms rn rd) =
    .ok (if immr.toNat < 32 then .lsr rd rn immr else .lsl rd rn imms) := by
  have hop := fieldOp11_assembledShift immr imms rn rd
  split_ifs at hop ⊢
  · rw [decode_default_byOpcode (t := .lsr) hop (by decide), decodeFields, fieldRd_assembledShift,
      fieldRn_assembledShift, fieldImmr_assembledShift]
  · rw [decode_default_byOpcode (t := .lsl) hop (by decide), decodeFields, fieldRd_assembledShift,
      fieldRn_assembledShift, fieldImms_assembledShift]

theorem decode_byImms_assembledShift : decode defaultOpcodeTable .byImms (assembledShift immr imms rn rd) =
    .ok (if imms = 63#6 then .lsr rd rn immr else .lsl rd rn imms) := by
  have hop : fieldOp11 (assembledShift immr imms rn rd) ∈ [0x69A#11, 0x69B#11] := by
    rw [fieldOp11_assembledShift]
    split_ifs <;> simp
  rw [decode_default_byImms hop, fieldImms_assembledShift]
  split_ifs
  · rw [decodeFields, fieldRd_assembledShift, fieldRn_assembledShift, fieldImmr_assembledShift]
  · rw [decodeFields, fieldRd_assembledShift, fieldRn_assembledShift, fieldImms_assembledShift]

end

/-! ### The rows of R95 as masks and matches -/

/-- A word masked in its upper bits only, compared with a value that is 0 below them. -/
theorem and_append_zero_eq_iff {m n : Nat} (x : BitVec (m + n)) (mask v : BitVec m) :
    x &&& (mask ++ 0#n) = v ++ 0#n ↔ x.extractLsb' n m &&& mask = v := by
  have hx : x = x.extractLsb' n m ++ x.extractLsb' 0 n := by
    rw [BitVec.extractLsb'_append_extractLsb'_eq_extractLsb' (by omega)]
    exact BitVec.extractLsb'_eq_self.symm
  conv_lhs => rw [hx]
  rw [BitVec.and_append, BitVec.and_zero, BitVec.append_left_inj]

/-- A word with known upper bits is these and its lower bits. -/
theorem eq_append_of_and_eq {m n : Nat} {x : BitVec (m + n)} {v : BitVec m}
    (h : x &&& (BitVec.allOnes m ++ 0#n) = v ++ 0#n) : x = v ++ x.extractLsb' 0 n := by
  rw [and_append_zero_eq_iff, BitVec.and_allOnes] at h
  rw [← h, BitVec.extractLsb'_append_extractLsb'_eq_extractLsb' (by omega)]
  exact BitVec.extractLsb'_eq_self.symm

end Sys2Proof
end

section
/-! Family `other`, the statements about words, numbers and spellings. -/

namespace Sys2Proof.Machine

/-! ### R95's rows against the default table -/

/-- A row's mask and match, on the primary opcode alone. -/
def rowMatches (op : BitVec 11) (r : Word × Word × TableInstr) : Bool := op &&& fieldOp11 r.1 == fieldOp11 r.2.1

/-- No row looks below the primary opcode. -/
theorem r95Rows_match_iff {r : Word × Word × TableInstr} (hr : r ∈ r95Rows) (w : Word) :
    (w &&& r.1 == r.2.1) = rowMatches (fieldOp11 w) r := by
  have hlow : ∀ r ∈ r95Rows, r.1 = fieldOp11 r.1 ++ 0#21 ∧ r.2.1 = fieldOp11 r.2.1 ++ 0#21 := by decide
  obtain ⟨hmask, hmatch⟩ := hlow r hr
  have hiff := and_append_zero_eq_iff (m := 11) (n := 21) w (fieldOp11 r.1) (fieldOp11 r.2.1)
  rw [← hmask, ← hmatch] at hiff
  rw [rowMatches, Bool.eq_iff_iff, beq_iff_eq, beq_iff_eq]
  exact hiff

/-- A primary opcode that matches a row of R95 is in the default table: one opcode for a full mask, and each value of the
bits that the masks of ADDIS, MOVZ, SUBIS and B leave free. -/
theorem default_find_ne_none_of_rowMatches {op : BitVec 11} {r : Word × Word × TableInstr} (hr : r ∈ r95Rows)
    (h : rowMatches op r = true) : defaultOpcodeTable.find op ≠ none := by
  have hmasks : ∀ r ∈ r95Rows,
      (fieldOp11 r.1 = BitVec.allOnes 11 ∧ defaultOpcodeTable.find (fieldOp11 r.2.1) ≠ none) ∨
      (fieldOp11 r.1 = BitVec.allOnes 10 ++ 0#1 ∧ fieldOp11 r.2.1 = 0x2C4#10 ++ 0#1) ∨
      (fieldOp11 r.1 = BitVec.allOnes 9 ++ 0#2 ∧
        (fieldOp11 r.2.1 = 0x1A5#9 ++ 0#2 ∨ fieldOp11 r.2.1 = 0x1E2#9 ++ 0#2)) ∨
      (fieldOp11 r.1 = BitVec.allOnes 6 ++ 0#5 ∧ fieldOp11 r.2.1 = 0x05#6 ++ 0#5) := by decide
  have hop : op &&& fieldOp11 r.1 = fieldOp11 r.2.1 := eq_of_beq h
  obtain ⟨hm, hfind⟩ | ⟨hm, hv⟩ | ⟨hm, hv | hv⟩ | ⟨hm, hv⟩ := hmasks r hr
  · rw [hm, BitVec.and_allOnes] at hop
    rwa [hop]
  · have hlow : ∀ low : BitVec 1, defaultOpcodeTable.find (0x2C4#10 ++ low) ≠ none := by decide
    rw [hm, hv] at hop
    rw [eq_append_of_and_eq (m := 10) (n := 1) hop]
    exact hlow _
  · have hlow : ∀ low : BitVec 2, defaultOpcodeTable.find (0x1A5#9 ++ low) ≠ none := by decide
    rw [hm, hv] at hop
    rw [eq_append_of_and_eq (m := 9) (n := 2) hop]
    exact hlow _
  · have hlow : ∀ low : BitVec 2, defaultOpcodeTable.find (0x1E2#9 ++ low) ≠ none := by decide
    rw [hm, hv] at hop
    rw [eq_append_of_and_eq (m := 9) (n := 2) hop]
    exact hlow _
  · have hlow : ∀ low : BitVec 5, defaultOpcodeTable.find (0x05#6 ++ low) ≠ none := by decide
    rw [hm, hv] at hop
    rw [eq_append_of_and_eq (m := 6) (n := 5) hop]
    exact hlow _

theorem default_find_eq_rows (op : BitVec 11) :
    defaultOpcodeTable.find op = (r95Rows.find? (rowMatches op)).map fun r => r.2.2 := by
  cases hfind : defaultOpcodeTable.find op with
  | some t =>
    have hentries : ∀ e ∈ defaultOpcodeTable, some e.2 = (r95Rows.find? (rowMatches e.1)).map fun r => r.2.2 := by decide
    exact hentries _ (OpcodeTable.mem_of_find hfind)
  | none =>
    have hrows : r95Rows.find? (rowMatches op) = none := by
      rw [List.find?_eq_none]
      exact fun r hr hmatch => default_find_ne_none_of_rowMatches hr hmatch hfind
    rw [hrows]
    rfl

/-! ### Which instruction an event names (R115) -/

theorem eventOf_decodeFields (t : TableInstr) (w : Word) : eventOf (decodeFields t w) = .decoded (.table t) := by
  cases t <;> rfl

theorem eventOf_decodeBCond (w : Word) :
    eventOf (decodeBCond w) = .decoded .bCond ∨ eventOf (decodeBCond w) = .unknownCond (fieldCond w) := by
  unfold decodeBCond
  split_ifs
  case neg => exact .inr rfl
  all_goals exact .inl rfl

/-! ### The destination of a decoded instruction (R23) -/

theorem destination_decodeFields {t : TableInstr} {w : Word} {r : RegIndex}
    (h : destination (decodeFields t w) = some r) : r = fieldRd w := by
  cases t with
  | stur | sturb | sturh | b | br | hlt => cases h
  | adds | subs | addis | subis | ands | eor | orr | lsl | lsr | movz | ldur | ldurb | ldurh =>
    exact (Option.some.inj h).symm

theorem destination_decodeBCond (w : Word) : destination (decodeBCond w) = none := by
  unfold decodeBCond
  split_ifs <;> rfl

/-! ### Comparison through the flags of a difference (R30) -/

theorem flagZero_sub (a b : DWord) : flagZero (a - b) = decide (a = b) := by
  rw [Bool.eq_iff_iff, flagZero_iff, decide_eq_true_eq]
  exact sub_eq_zero

/-- Without overflow the sign of the difference is the signed order. -/
theorem flagNegative_sub {a b : DWord} (hlo : -2 ^ 63 ≤ a.toInt - b.toInt) (hhi : a.toInt - b.toInt < 2 ^ 63) :
    flagNegative (a - b) = decide (a.toInt < b.toInt) := by
  have hexact : (a - b).toInt = a.toInt - b.toInt := by
    rw [BitVec.toInt_sub]
    exact Int.bmod_eq_of_le (by omega) (by omega)
  rw [Bool.eq_iff_iff, flagNegative_iff, decide_eq_true_eq, hexact]
  omega

/-! ### Widening (R197) -/

section
variable {n : Nat} (x : BitVec n)

theorem toNat_setWidth_signExtend_32 :
    ((x.signExtend 32).setWidth 64).toNat = (x.toInt % 2 ^ 32).toNat := by
  rw [BitVec.toNat_setWidth_of_le (by decide), BitVec.signExtend, BitVec.toNat_ofInt]
  norm_num

theorem signExtend_eq_signExtend_through_32 (hn : n ≤ 32) : x.signExtend 64 = (x.signExtend 32).signExtend 64 := by
  apply BitVec.eq_of_toInt_eq
  rw [BitVec.toInt_signExtend_of_le (by omega), BitVec.toInt_signExtend_of_le (by decide),
    BitVec.toInt_signExtend_of_le hn]

end

/-! ### Addresses (R190) -/

theorem toNat_add_memOffset (base : DWord) (imm9 : BitVec 9) :
    ((base + memOffset imm9).toNat : Int) = (base.toNat + imm9.toInt) % 2 ^ 64 := by
  rw [← memOffset_toInt, BitVec.toNat_add, BitVec.toInt_eq_toNat_cond]
  split <;> omega

/-! ### Pseudo-instructions (R105) -/

theorem WritesReg.keepsRegs {s t : State} {v : DWord} (h : WritesReg s t xzr v) : KeepsRegs s t := fun i =>
  (h i).trans (if_neg fun hi => hi.2 hi.1)

theorem aluSetFlags_writes (id : TableInstr) (rd : RegIndex) (r : DWord) (s : State) :
    ∃ t, aluSetFlags id rd r s = .next t ∧ WritesReg s t rd r ∧ SetsFlagsFrom t r := by
  obtain ⟨t, ht, hreg, hflags, -⟩ := aluSetFlags_completes id rd r s
  exact ⟨t, ht, hreg, (if_pos rfl).mp hflags⟩

/-- A flag setter with destination 31 is a comparison. -/
theorem aluSetFlags_xzr_compares (id : TableInstr) (r : DWord) (s : State) :
    ∃ t, aluSetFlags id xzr r s = .next t ∧ KeepsRegs s t ∧ SetsFlagsFrom t r := by
  obtain ⟨t, ht, hreg, hflags⟩ := aluSetFlags_writes id xzr r s
  exact ⟨t, ht, hreg.keepsRegs, hflags⟩

theorem aluKeepFlags_writes (id : TableInstr) (rd : RegIndex) (r : DWord) (s : State) :
    ∃ t, aluKeepFlags id rd r s = .next t ∧ WritesReg s t rd r ∧ KeepsFlags s t := by
  obtain ⟨t, ht, hreg, hflags, -⟩ := aluKeepFlags_completes id rd r s
  exact ⟨t, ht, hreg, (if_neg Bool.false_ne_true).mp hflags⟩

@[simp] theorem State.x_xzr (s : State) : s.x xzr = 0#64 := Proc.x_xzr s.cur

/-! ### The statements -/

/-- Settles O49: an instruction's own row, its fields, or its condition code. -/
theorem decodeOfEncodeIsIdentity : Obligations.DecodeOfEncodeIsIdentity := fun _ _ => decode_encode

/-- Settles O13: the sign and the zero of the difference decide the order, and what each condition asks of them. -/
theorem signedConditionsDecideComparisonWithoutOverflow :
    Obligations.SignedConditionsDecideComparisonWithoutOverflow := by
  refine ⟨fun a b => ?_, fun a b hlo hhi => ?_, by decide⟩
  · rw [flagZero_sub]
    exact ⟨rfl, by simp [condHolds]⟩
  · have heq : a = b ↔ a.toInt = b.toInt := BitVec.toInt_inj.symm
    rw [flagZero_sub, flagNegative_sub hlo hhi]
    refine ⟨Bool.eq_iff_iff.mpr ((condHolds_bGe _ _).trans ?_), Bool.eq_iff_iff.mpr (condHolds_bLt _ _),
      Bool.eq_iff_iff.mpr ((condHolds_bGt _ _).trans ?_), Bool.eq_iff_iff.mpr ((condHolds_bLe _ _).trans ?_)⟩
    all_goals
      simp only [decide_eq_true_eq, decide_eq_false_iff_not, heq]
      omega

/-- Settles O28: the effect on the next record off the destination; a decoded destination is `Rd`. -/
theorem instructionWritesAtMostItsDestination : Obligations.InstructionWritesAtMostItsDestination := by
  refine ⟨fun i s t h r => (exec_nxtEffect h).x_of_not_destination, fun w s t h r => ?_, fun table split w i r h hr => ?_⟩
  · obtain rfl := Host.Outcome.next.inj h
    rfl
  · obtain ⟨-, rfl⟩ | ⟨-, t, -, rfl⟩ := decode_ok_cases h
    · rw [destination_decodeBCond] at hr; cases hr
    · exact destination_decodeFields hr

/-- Settles O50: a B.cond word, a word of a row the table decides, or a shift that `imms` decides. -/
theorem encodeOfDecodeAgreesOffIgnoredBits : Obligations.EncodeOfDecodeAgreesOffIgnoredBits := by
  intro split w i h
  obtain ⟨hhb, rfl⟩ | ⟨-, t, ht, rfl⟩ := decode_ok_cases h
  · rw [encode_decodeBCond, ignoredBits_decodeBCond]
    exact ⟨wellFormed_decodeBCond split w, encodeCB_agrees hhb⟩
  obtain ⟨hfind, hsplit⟩ | ⟨rfl, hop, rfl⟩ := dispatch_default_cases ht
  · obtain ⟨hfind', hfields⟩ := decodeFields_encode_decodeFields hfind hsplit
    exact ⟨wellFormed_of_default_find hfind hsplit, agree_off_ignored hfind' hfind hsplit hfields⟩
  · obtain ⟨hlsl, hlsr⟩ := shift_agrees_byImms hop
    split_ifs with h63
    · exact ⟨rfl, hlsr h63⟩
    · exact ⟨by simpa [decodeFields, Instr.wellFormed] using h63, hlsl⟩

/-- Settles O51: the change leaves the dispatch and the operands, in the same three cases. -/
theorem ignoredBitsDoNotChangeTheInstruction : Obligations.IgnoredBitsDoNotChangeTheInstruction := by
  intro split w m i h
  obtain ⟨hhb, rfl⟩ | ⟨-, t, ht, rfl⟩ := decode_ok_cases h
  · obtain ⟨hhb', hsame⟩ := decodeBCond_change_ignored hhb m
    rw [ignoredBits_decodeBCond, decode_bCond hhb', hsame]
  obtain ⟨hfind, hsplit⟩ | ⟨rfl, hop, rfl⟩ := dispatch_default_cases ht
  · obtain ⟨hop, hsame⟩ := fields_change_ignored hsplit w m
    rw [decode_of_default_find (hop ▸ hfind) hsplit, hsame]
  · split_ifs at h ⊢ with h63
    · have hnone : m &&& ignoredBits .byImms (decodeFields .lsr w) = 0#32 := BitVec.and_zero
      rw [hnone, BitVec.xor_zero, h]
    · exact decode_lsl_change_byImms hop h63 m

/-- Settles O53: the rows on the primary opcode, and B.cond's on the high byte. -/
theorem defaultTableMatchesItsRows : Obligations.DefaultTableMatchesItsRows := by
  refine ⟨by decide, fun w => ?_, fun w => ?_⟩
  · have hrows : r95Rows.find? (fun r => w &&& r.1 == r.2.1) = r95Rows.find? (rowMatches (fieldOp11 w)) :=
      List.find?_congr fun r hr => r95Rows_match_iff hr w
    rw [hrows]
    exact default_find_eq_rows (fieldOp11 w)
  · have hiff := and_append_zero_eq_iff (m := 8) (n := 24) w (BitVec.allOnes 8) 0x54#8
    rwa [BitVec.and_allOnes] at hiff

/-- Settles O55: the assembled word's decoding by bit 5 of `immr` or by `imms`, at the fields R104 gives. -/
theorem assembledShiftsExecuteAsWritten : Obligations.AssembledShiftsExecuteAsWritten := by
  intro rd rn n
  have hlslImmr : (BitVec.ofNat 6 (64 - n)).toNat = (64 - n) % 64 := BitVec.toNat_ofNat _ _
  have hlslImms : (BitVec.ofNat 6 (63 - n)).toNat = (63 - n) % 64 := BitVec.toNat_ofNat _ _
  have hlsrImmr : (BitVec.ofNat 6 n).toNat = n % 64 := BitVec.toNat_ofNat _ _
  have hlslNe : 1 ≤ n → BitVec.ofNat 6 (63 - n) ≠ 63#6 := fun hn heq => by
    have h63 : (63 - n) % 64 = 63 := hlslImms ▸ congrArg BitVec.toNat heq
    omega
  simp only [assembledLsl, assembledLsr, decode_byOpcode_assembledShift, decode_byImms_assembledShift, lslAmount,
    lsrAmount, hlslImmr, hlsrImmr]
  refine ⟨fun h1 h2 => ⟨BitVec.ofNat 6 (63 - n), by omega, by rw [if_neg (by omega)]⟩,
    fun h1 h2 => ⟨BitVec.ofNat 6 (64 - n), by omega, by rw [if_pos (by omega)]⟩,
    fun h => ⟨BitVec.ofNat 6 n, by omega, by rw [if_pos (by omega)]⟩,
    fun h1 h2 => ⟨63#6, rfl, by rw [if_neg (by omega)]⟩,
    fun h1 h2 => ⟨BitVec.ofNat 6 (63 - n), by omega, by rw [if_neg (hlslNe h1)]⟩,
    fun h => ⟨BitVec.ofNat 6 n, by omega, rfl⟩⟩

/-- Settles O20: each reading as a number, for bytes and for halfwords. -/
theorem narrowWideningReadings : Obligations.NarrowWideningReadings :=
  ⟨fun b => ⟨BitVec.toInt_signExtend_of_le (by decide), toNat_setWidth_signExtend_32 b,
      BitVec.toNat_setWidth_of_le (by decide), signExtend_eq_signExtend_through_32 b (by decide)⟩,
    fun h => ⟨BitVec.toInt_signExtend_of_le (by decide), toNat_setWidth_signExtend_32 h,
      BitVec.toNat_setWidth_of_le (by decide), signExtend_eq_signExtend_through_32 h (by decide)⟩⟩

/-- Settles O22: the sum of the base and the signed offset, the base being 0 at index 31. -/
theorem effectiveAddressIsBasePlusOffset : Obligations.EffectiveAddressIsBasePlusOffset := by
  refine ⟨fun s rn imm9 => toNat_add_memOffset (s.x rn) imm9, fun s imm9 => ?_⟩
  rw [effectiveAddress, State.x_xzr, toNat_add_memOffset]
  simp

/-- Settles O52: the dispatch at the high byte, outside the table, and inside it under each split. -/
theorem dispatchIsHighByteThenOpcode : Obligations.DispatchIsHighByteThenOpcode := by
  refine fun table split w => ⟨fun hhb => ?_, fun hhb hfind => decode_unknown hhb hfind,
    fun t hhb hfind => ⟨fun (hrow : _ ∨ fieldOp11 w ∉ _) => ?_, fun hsplit (hop : fieldOp11 w ∈ _) => ?_⟩⟩
  · have hdecode : ∀ table', decode table' split w = .ok (decodeBCond w) := fun _ => decode_bCond hhb
    exact ⟨(hdecode table).trans (hdecode []).symm, _, hdecode table, eventOf_decodeBCond w⟩
  · have hne : split = .byOpcode ∨ (fieldOp11 w ≠ 0x69A#11 ∧ fieldOp11 w ≠ 0x69B#11) :=
      hrow.imp_right fun hnot => by simpa using hnot
    exact ⟨_, decode_table hhb ((dispatchOp11_eq_find hne).trans hfind), eventOf_decodeFields t w⟩
  · subst hsplit
    have hdispatch : dispatchOp11 table .byImms w = some (if fieldImms w = 63#6 then .lsr else .lsl) :=
      (dispatchOp11_byImms (by simpa using hop) (by rw [fieldOp11, hfind]; nofun)).trans (apply_ite some _ _ _).symm
    exact ⟨_, decode_table hhb hdispatch, eventOf_decodeFields _ w⟩

/-- Settles O54: each word, through its bytes and the default table. -/
theorem writtenOutWordsDecode : Obligations.WrittenOutWordsDecode := by
  refine ⟨?_, ?_, ?_, ?_, ?_, ?_, ?_, ?_⟩ <;> decide

/-- Settles O56: comparisons are flag setters with destination 31; NEGS subtracts from 0, and MOV disjoins with 0. -/
theorem pseudoInstructionEffects : Obligations.PseudoInstructionEffects := by
  refine ⟨fun rn rm s => aluSetFlags_xzr_compares .subs _ s, fun rn imm12 s => aluSetFlags_xzr_compares .subis _ s,
    fun rn rm s => aluSetFlags_xzr_compares .adds _ s, fun rn imm12 s => aluSetFlags_xzr_compares .addis _ s,
    fun rn rm s => aluSetFlags_xzr_compares .ands _ s, fun rd rm s => ?_, fun rd rm s => ?_,
    fun rd imm16 s => aluKeepFlags_writes .movz rd _ s⟩
  · have hneg : -s.x rm = s.x xzr - s.x rm := by simp
    rw [hneg]
    exact aluSetFlags_writes .subs rd _ s
  · have hor : s.x rm = s.x xzr ||| s.x rm := by simp
    rw [hor]
    exact aluKeepFlags_writes .orr rd _ s

end Sys2Proof.Machine
end
